-- ==== Sys2Proof/Word.lean ====
section
/-! DEFINITION. The words and names of the encoder block's ports: bytes, the four code formats of
spec/30_encoding.md (U, B, S, H) and the values the ports carry. -/

namespace Sys2Proof

/-- A channel value or the byte being encoded (R7, R12): 8 bits, unsigned. -/
abbrev Byte := BitVec 8

/-- A code of format U, B or H (R35, R36, R38). -/
abbrev Code2 := BitVec 2

/-- One element of the item stream as a format S word (R37): tag `t` in bit 24. -/
abbrev ElementWord := BitVec 25

/-- A line level (R19). -/
inductive Level where
  | low
  | high
  deriving DecidableEq, Repr, Inhabited

/-- The timing profile, fixed when the block is built (R2). -/
inductive Profile where
  | normal
  | slow
  deriving DecidableEq, Repr, Inhabited

/-- The answer of one pin command as the block sees it (R47). -/
inductive PinAnswer where
  | ok
  | err
  deriving DecidableEq, Repr, Inhabited

/-- One draw of the output line (R47): OK, or ERR together with the level the line has afterwards. -/
inductive PinDraw where
  | ok
  | err (after : Level)
  deriving DecidableEq, Repr, Inhabited

/-- The answers of one tick poll (R46). -/
inductive PollAnswer where
  | ready
  | notYet
  | error
  deriving DecidableEq, Repr

/-- How a completed wait ended (R22). -/
inductive WaitEnd where
  | tick
  | error
  deriving DecidableEq, Repr

/-- One element as the item source returns it (R59). -/
inductive Element where
  | color (r g b : Byte)
  | endSeq
  deriving DecidableEq, Repr

/-- The result of a write (R82). `writeFailed` is the declared error kind that no rule produces (R85). -/
inductive WriteResult where
  | ok
  | writeFailed
  deriving DecidableEq, Repr

/-- The events of the block's trace (R22). -/
inductive Event where
  | new
  | cmdWrite
  | fetch (e : Element)
  | wait (how : WaitEnd)
  | pin (level : Level) (answer : PinAnswer)
  | done (result : WriteResult)
  deriving DecidableEq, Repr

/-- A code together with its format. The formats share code values and belong to different ports, so
the format is part of what is decoded (R35, R36, R37, R38). -/
inductive Code where
  | u (c : Code2)
  | b (c : Code2)
  | s (w : ElementWord)
  | h (c : Code2)
  deriving DecidableEq, Repr

/-- The four input formats of spec/30_encoding.md section 1. -/
inductive Format where
  | u
  | b
  | s
  | h
  deriving DecidableEq, Repr

/-- The format of a code. -/
def Code.format : Code → Format
  | .u _ => .u
  | .b _ => .b
  | .s _ => .s
  | .h _ => .h

end Sys2Proof
end

