-- ==== Sys2Proof/Syntax.lean ====
section
/-! DEFINITION. The operations of the block: one constructor per row of spec/opcode_table.json. -/

namespace Sys2Proof

/-- The block's operations, in the table's order: micro-operations (format U), bit symbols (format B),
stream elements (format S) and host commands (format H). -/
inductive Instr where
  /-- WAIT_TICK (R48). -/
  | waitTick
  /-- SET_HIGH (R49). -/
  | setHigh
  /-- SET_LOW (R50). -/
  | setLow
  /-- BIT0.N (R53). -/
  | bit0N
  /-- BIT1.N (R52). -/
  | bit1N
  /-- BIT0.S (R55). -/
  | bit0S
  /-- BIT1.S (R54). -/
  | bit1S
  /-- COLOR(r, g, b) (R66). -/
  | color (r g b : Byte)
  /-- END (R67). -/
  | endSeq
  /-- NOP (R80). -/
  | nop
  /-- WRITE (R78). -/
  | write
  /-- NEW (R76). -/
  | new
  deriving DecidableEq, Repr

end Sys2Proof
end

