-- ==== Sys2Proof/Decode.lean ====
section
/-! DEFINITION. The decoder and encoder of spec/30_encoding.md: formats U, B, S and H to operations and
back. The decoder is total and rejects the two reserved codes by name (R42). -/

namespace Sys2Proof

/-- Why a code has no operation (R42, R91). -/
inductive DecodeError where
  /-- Format U code `11`: the model fault RESERVED_MICROOP. -/
  | reservedMicroop
  /-- Format H code `11`: the model refusal REFUSED_HOST_CODE. -/
  | refusedHostCode
  deriving DecidableEq, Repr

/-- Format U (R35). -/
def decodeU (c : Code2) : Except DecodeError Instr :=
  if c = 0b00#2 then .ok .waitTick
  else if c = 0b01#2 then .ok .setHigh
  else if c = 0b10#2 then .ok .setLow
  else .error .reservedMicroop

/-- Format B: `p` = bit 1 (0 NORMAL, 1 SLOW), `d` = bit 0, the data bit (R36). -/
def decodeB (code : Code2) : Instr :=
  match code[1], code[0] with
  | false, false => .bit0N
  | false, true => .bit1N
  | true, false => .bit0S
  | true, true => .bit1S

/-- Format S: tag `t` = bit 24; COLOR carries `r` = 23:16, `g` = 15:8, `b` = 7:0; END ignores its
payload (R37, R42). -/
def decodeS (w : ElementWord) : Instr :=
  if w[24] then .endSeq
  else .color (w.extractLsb' 16 8) (w.extractLsb' 8 8) (w.extractLsb' 0 8)

/-- Format H (R38). -/
def decodeH (c : Code2) : Except DecodeError Instr :=
  if c = 0b00#2 then .ok .nop
  else if c = 0b01#2 then .ok .write
  else if c = 0b10#2 then .ok .new
  else .error .refusedHostCode

/-- The decoder: the operation a code stands for in its format. -/
def decode : Code → Except DecodeError Instr
  | .u c => decodeU c
  | .b c => .ok (decodeB c)
  | .s w => .ok (decodeS w)
  | .h c => decodeH c

/-- The format S word of a color: `t = 0`, then `r`, `g`, `b` (R37). -/
def colorWord (r g b : Byte) : ElementWord := 0#1 ++ r ++ g ++ b

/-- The format S word of END as a producer writes it: `t = 1`, payload 0 (R37). -/
def endWord : ElementWord := 1#1 ++ 0#24

/-- The format B code of a profile and a data bit, `{p, d}` (R36). -/
def symbolCode (p : Profile) (d : Bool) : Code2 :=
  match p with
  | .normal => 0#1 ++ BitVec.ofBool d
  | .slow => 1#1 ++ BitVec.ofBool d

/-- The encoder: the code of each operation, from the tables of R35, R36, R37 and R38. -/
def encode : Instr → Code
  | .waitTick => .u 0b00#2
  | .setHigh => .u 0b01#2
  | .setLow => .u 0b10#2
  | .bit0N => .b 0b00#2
  | .bit1N => .b 0b01#2
  | .bit0S => .b 0b10#2
  | .bit1S => .b 0b11#2
  | .color r g b => .s (colorWord r g b)
  | .endSeq => .s endWord
  | .nop => .h 0b00#2
  | .write => .h 0b01#2
  | .new => .h 0b10#2

/-- The format the opcode table gives each operation. -/
def Instr.format : Instr → Format
  | .waitTick => .u
  | .setHigh => .u
  | .setLow => .u
  | .bit0N => .b
  | .bit1N => .b
  | .bit0S => .b
  | .bit1S => .b
  | .color _ _ _ => .s
  | .endSeq => .s
  | .nop => .h
  | .write => .h
  | .new => .h

/-- Format W: the order of one color's 24 bits on the line, `{g, r, b}`, bit 23 first (R39). -/
def lineWord (r g b : Byte) : BitVec 24 := g ++ r ++ b

/-- The code a bare table word stands for. A table word carries no format, and the 2-bit formats share
their code values; the format is then that of the FIRST row of spec/opcode_table.json with that code:
format U for 00, 01 and 10, format B for 11. A word longer than one byte is a format S element. None
where a bit above the format's width is set (DESIGN CHOICE, log 15). -/
def tableCode (nbits w : Nat) : Option Code :=
  if nbits ≤ 8 then
    if w < 3 then some (.u (BitVec.ofNat 2 w))
    else if w = 3 then some (.b (BitVec.ofNat 2 w))
    else none
  else if w < 2 ^ 25 then some (.s (BitVec.ofNat 25 w))
  else none

/-- The operation the decoder reads from a bare table word (log 15). -/
def decodeTableWord (nbits w : Nat) : Option Instr :=
  match tableCode nbits w with
  | none => none
  | some c =>
    match decode c with
    | .ok i => some i
    | .error _ => none

end Sys2Proof
end

