-- ==== Sys2Proof/Config.lean ====
section
/-! DEFINITION. The block's parameters (spec/00_scope.md section 4), its constants, and the free values
the spec leaves to the environment (spec/93_implementation_defined.md I1 to I9). A free value has no
body: nothing in Lean can evaluate it, so a claim holds whatever it is. -/

namespace Sys2Proof

/-- The parameters fixed before the block exists (R2 to R5, spec/00_scope.md section 4). A state carries
them as plain data, so that a statement about every state is for every choice of them (log 3).
`tickHz` and the four latencies are read by no operation (R3, D14). -/
structure Params where
  profile : Profile
  tickLatch : Bool
  tickMayFail : Bool
  tickHz : Nat
  tPin : Nat
  tStep : Nat
  tFetch : Nat
  slowZeroHigh : Nat
  deriving DecidableEq, Repr

/-- `GAP_TICKS = 3 * 50 + 10` (R6). -/
def Config.gapTicks : Nat := 3 * 50 + 10

/-- `B(PROFILE)`: the waits of one bit symbol (R56). -/
def Config.waitsPerBit : Profile → Nat
  | .normal => 4
  | .slow => 3

/-- The length of one bit symbol in micro-operations: `B(PROFILE) + 2` (R56, R63). -/
def Config.symbolLength (p : Profile) : Nat := Config.waitsPerBit p + 2

/-- Free value: how many tick edges occur just before the block's n-th step (R20, R31, I8). -/
opaque Config.edges : Nat → Nat

/-- Free value: whether the n-th poll answers ERROR when TICK_MAY_FAIL (R46, I2). -/
opaque Config.pollFails : Nat → Bool

/-- Free value: the output line's n-th answer and, after ERR, the level (R47, I3, I4). -/
opaque Config.pin : Nat → PinDraw

/-- Free value: whether the item source answers the n-th request now (R59, I18). -/
opaque Config.itemReady : Nat → Bool

/-- Free value: the n-th color of an item source that never ends, as bits `r`, `g`, `b` (R92, I19). -/
opaque Config.endlessColor : Nat → BitVec 24

/-- Free value: the line's level before NEW (R24, I5). -/
opaque Config.lineBeforeNew : Level

/-- Free value: `tick.pending` when the model starts (R24, I6). -/
opaque Config.pendingAtReset : Bool

/-- Open parameter TICK_LATCH of the block that resets (R4, I1). -/
opaque Config.tickLatch : Bool

/-- Open parameter TICK_MAY_FAIL of the block that resets (R5, I2). -/
opaque Config.tickMayFail : Bool

/-- Open parameter T_PIN in ns (I9). -/
opaque Config.tPin : Nat

/-- Open parameter T_STEP in ns (I9). -/
opaque Config.tStep : Nat

/-- Open parameter T_FETCH in ns (I9). -/
opaque Config.tFetch : Nat

/-- Open parameter δ, the high time of a SLOW "0" in ns (R106, I9). -/
opaque Config.slowZeroHigh : Nat

/-- The parameters of the block that resets: the default profile NORMAL (R2), the required tick rate
(R3), and the open parameters as free values. -/
def Config.atReset : Params where
  profile := .normal
  tickLatch := Config.tickLatch
  tickMayFail := Config.tickMayFail
  tickHz := 3000000
  tPin := Config.tPin
  tStep := Config.tStep
  tFetch := Config.tFetch
  slowZeroHigh := Config.slowZeroHigh

end Sys2Proof
end

