-- ==== Sys2Proof/Machine/State.lean ====
section
/-! DEFINITION. The machine's state as plain data, its faults and refusals, and its state at reset. -/

namespace Sys2Proof.Machine

/-- Draws of the environment ("a model takes it as a free input of the step", spec/00_scope.md section
6): the draws given in advance, oldest first, and how many have been used. When none is given, the draw
is the free value of `Config` at the count (log 2). -/
structure Draws (α : Type) where
  script : List α
  used : Nat
  deriving DecidableEq, Repr

/-- The remaining elements of one sequence at the item source, as format S words (R21, R37); `endless`
marks a source that goes on with colors and never returns END (R92). -/
structure Stream where
  words : List ElementWord
  endless : Bool
  deriving DecidableEq, Repr

/-- One thing the host does at its port (R84). `eager` marks a command presented in any phase (D10);
a command not so marked waits until no command is in progress, as a blocked caller does (log 10). -/
inductive HostAct where
  | cmd (code : Code2) (seq : Stream) (eager : Bool)
  | discard
  deriving DecidableEq, Repr

/-- The sequencer's control state (R11). -/
inductive Phase where
  | uninit
  | idle
  | fetch
  | alignTick
  | encodeByte
  | resetGap
  deriving DecidableEq, Repr

/-- The refusal marks a model keeps for the whole run (R91). -/
inductive Mark where
  /-- Host code `11` (R81). -/
  | refusedHostCode
  /-- NEW outside UNINIT (R77). -/
  | refusedNew
  /-- WRITE outside IDLE (R79). -/
  | refusedWrite
  deriving DecidableEq, Repr

/-- One entry of the trace (R22): the event, the tick edges so far, and the line's level after it. -/
structure Entry where
  ticks : Nat
  event : Event
  line : Level
  deriving DecidableEq, Repr

/-- The fields of `S` that can have no value (R12, R24). -/
inductive Field where
  | r
  | g
  | b
  | ch
  | data
  | bit
  | step
  | gap
  deriving DecidableEq, Repr

/-- Why the machine stops. All three are safe: no run of the block reaches them (R91). -/
inductive Fault where
  /-- RESERVED_MICROOP (R42, R91): raised by `step` for format U code `11` in a listing. Safe. -/
  | reservedMicroop
  /-- UNWRITTEN_FIELD, which the spec states (R24, R91, D21, I16, vector E1): raised by a rule of the step table
  that reads a field of `S` with no value. Safe: no run performs such a read. -/
  | unwrittenField (f : Field)
  /-- The position names no row of the step table (`S.step` past its pattern, `S.gap` above 160): raised
  by the ENCODE_BYTE and RESET_GAP steps. The model's own; safe: no run reaches such a position (log 12). -/
  | offStepTable
  deriving DecidableEq, Repr

/-- Why an operation has no meaning. The spec's own refusals are not among these: the run goes on after
them with a `Mark` (P6, log 6). -/
inductive Refusal where
  /-- Raised only by an arm of `exec` that has no meaning yet (there is none). Safe. -/
  | notModelled (mnemonic : String)
  deriving DecidableEq, Repr

/-- The machine: the block's tuple `S` (R10), the state of its collaborators and ports (R19 to R22), its
parameters, and the environment's draws. A field of `S` that is `none` has no value (R24). -/
structure State where
  cfg : Params
  phase : Phase
  r : Option Byte
  g : Option Byte
  b : Option Byte
  ch : Option (BitVec 2)
  data : Option Byte
  bit : Option (BitVec 3)
  step : Option (BitVec 3)
  gap : Option (BitVec 8)
  line : Level
  pending : Bool
  waiting : Bool
  rest : Stream
  offer : Stream
  host : List HostAct
  owned : Bool
  log : List Entry
  marks : List Mark
  listing : List Code2
  clock : Nat
  edges : Draws Nat
  polls : Draws Bool
  pins : Draws PinDraw
  items : Draws Bool
  colors : Draws (BitVec 24)
  deriving DecidableEq, Repr

/-- No draw given in advance. -/
def Draws.fresh (α : Type) : Draws α where
  script := []
  used := 0

/-- The empty sequence. -/
def Stream.empty : Stream where
  words := []
  endless := false

/-- The machine before NEW (R24, first column): phase UNINIT, no field of `S` written, the line and the
tick source at any level (R24, log 4), nothing presented at any port (log 16). -/
def State.reset : State where
  cfg := Config.atReset
  phase := .uninit
  r := none
  g := none
  b := none
  ch := none
  data := none
  bit := none
  step := none
  gap := none
  line := Config.lineBeforeNew
  pending := Config.pendingAtReset
  waiting := false
  rest := Stream.empty
  offer := Stream.empty
  host := []
  owned := false
  log := []
  marks := []
  listing := []
  clock := 0
  edges := Draws.fresh Nat
  polls := Draws.fresh Bool
  pins := Draws.fresh PinDraw
  items := Draws.fresh Bool
  colors := Draws.fresh (BitVec 24)

end Sys2Proof.Machine
end

