-- ==== Sys2Proof/Machine/Flags.lean ====
section
/-! DEFINITION. The block has no flags and no condition codes (spec/10_state.md R15). This file holds the
conditions its rules test instead: the data bit, the phase, and the comparisons of the counters. -/

namespace Sys2Proof.Machine

/-- The data bit of the current symbol, bit 7 of the shift register (R15, R41). -/
def dataBit (d : Byte) : Bool := d[7]

/-- `S.step + 1 < L` (R63, R69). -/
def moreMicroOps (k : BitVec 3) (len : Nat) : Bool := decide (k.toNat + 1 < len)

/-- `S.bit < 7` (R63, R69). -/
def moreBits (n : BitVec 3) : Bool := decide (n.toNat < 7)

/-- `S.ch < 2` (R63, R69). -/
def moreChannels (c : BitVec 2) : Bool := decide (c.toNat < 2)

/-- The phases in which no write is running. -/
def Phase.quiet : Phase → Bool
  | .uninit => true
  | .idle => true
  | .fetch => false
  | .alignTick => false
  | .encodeByte => false
  | .resetGap => false

/-- Whether the block does not exist yet: NEW has not been recorded (R24, R76). -/
def State.unbuilt (s : State) : Bool := decide (s.phase = .uninit) && !s.owned

/-- Whether the block is inside NEW: it owns tick source and line, and its SET_LOW is due (R76, R88; log 24). -/
def State.constructing (s : State) : Bool := decide (s.phase = .uninit) && s.owned

/-- Whether an accepted command is in progress: NEW or a write (R76, R78). -/
def State.busy (s : State) : Bool := !s.phase.quiet || s.constructing

/-- Whether the block has been discarded: its lifetime is over (R83). -/
def State.discarded (s : State) : Bool := decide (s.phase = .idle) && !s.owned

/-- Whether the host presents a command without waiting for the block (D10). -/
def State.hostEager (s : State) : Bool :=
  match s.host with
  | .cmd _ _ eager :: _ => eager
  | .discard :: _ => false
  | [] => false

end Sys2Proof.Machine
end

