-- ==== Sys2Proof/Machine/Ops.lean ====
section
/-! DEFINITION. The named operations of the block and its ports: draws, tick edges, `TickPoll`,
`PinSet`, the three micro-operations, trace and refusal marks. The block has no memory, no registers a
host can reach, and takes no exception (spec/10_state.md R14, R18; spec/60_exceptions.md R85, R89). -/

namespace Sys2Proof.Machine

/-- The next draw: given in advance, else the free value at the count of draws used. -/
def Draws.peek {α : Type} (free : Nat → α) (d : Draws α) : α :=
  match d.script with
  | x :: _ => x
  | [] => free d.used

/-- The draws after the next one is used. -/
def Draws.pop {α : Type} (d : Draws α) : Draws α where
  script := d.script.tail
  used := d.used + 1

/-- How many tick edges occur just before this step. -/
def State.edgesNow (s : State) : Nat := s.edges.peek Config.edges

/-- Whether this step's poll answers ERROR: only when TICK_MAY_FAIL (R46). -/
def State.pollFailsNow (s : State) : Bool := s.cfg.tickMayFail && s.polls.peek Config.pollFails

/-- The output line's next answer (R47). -/
def State.pinNow (s : State) : PinDraw := s.pins.peek Config.pin

/-- Whether the item source answers now (R59). -/
def State.itemReadyNow (s : State) : Bool := s.items.peek Config.itemReady

/-- `record e`: the event joins the trace (R22). -/
def State.record (s : State) (e : Event) : State :=
  { s with log := s.log ++ [{ ticks := s.clock, event := e, line := s.line }] }

/-- A refusal is recorded and the block takes no step (R77, R79, R81). -/
def State.refuse (s : State) (m : Mark) : State := { s with marks := s.marks ++ [m] }

/-- The tick source's own action: each edge sets `tick.pending`, and an edge while it is set is lost
(R46). The clock counts the edges (log 14). -/
def State.tickEdges (s : State) : State :=
  { s with
    edges := s.edges.pop
    clock := s.clock + s.edgesNow
    pending := s.pending || decide (0 < s.edgesNow) }

/-- `TickPoll()`: one non-blocking poll (R46). -/
def State.tickPoll (s : State) : PollAnswer × State :=
  let t := { s with polls := s.polls.pop }
  if s.pollFailsNow then (.error, t)
  else if s.pending then (.ready, { t with pending := false })
  else (.notYet, t)

/-- Whether a tick that counts for the wait performed now is pending: with `TICK_LATCH = 0` only one from
after the wait began (R46, R48). -/
def State.tickCounts (s : State) : Bool := s.pending && (s.cfg.tickLatch || s.waiting)

/-- Whether the wait performed now ends at this poll (R48). -/
def State.waitEnds (s : State) : Bool := s.pollFailsNow || s.tickCounts

/-- The start of a wait, or its continuation: a tick that does not count is cleared (R48). -/
def State.beginWait (s : State) : State := { s with waiting := true, pending := s.tickCounts }

/-- The end of a wait. -/
def State.endWait (s : State) (how : WaitEnd) : State :=
  { s with waiting := false }.record (.wait how)

/-- WAIT_TICK, one poll of it (R48): READY and ERROR end the wait; after NOT_YET the wait is still in
progress and the next step polls again. -/
def State.waitTick (s : State) : State :=
  match s.beginWait.tickPoll with
  | (.ready, t) => t.endWait .tick
  | (.error, t) => t.endWait .error
  | (.notYet, t) => t

/-- The line's level after a pin command with this draw (R47). -/
def levelAfter (level : Level) : PinDraw → Level
  | .ok => level
  | .err after => after

/-- The answer a pin draw gives the block (R47). -/
def answerOf : PinDraw → PinAnswer
  | .ok => .ok
  | .err _ => .err

/-- `PinSet(level)` and its record; the answer is discarded (R47, R49, R50). -/
def State.pinSet (s : State) (level : Level) : State :=
  { s with pins := s.pins.pop, line := levelAfter level s.pinNow }.record (.pin level (answerOf s.pinNow))

/-- One micro-operation of a pattern string, by its format U code (R35, R40). -/
def State.microOp (s : State) (c : Code2) : Host.Outcome State Fault Refusal :=
  if c = 0b00#2 then .next s.waitTick
  else if c = 0b01#2 then .next (s.pinSet .high)
  else if c = 0b10#2 then .next (s.pinSet .low)
  else .fault .reservedMicroop

/-- Whether, in the state after the micro-operation `c`, it is a wait still in progress, so that the
block holds its position. -/
def State.held (s : State) (c : Code2) : Bool := decide (c = 0b00#2) && s.waiting

end Sys2Proof.Machine
end

