-- ==== Sys2Proof/Machine/Operands.lean ====
section
/-! DEFINITION. Operand assembly (spec/30_encoding.md R41), the pattern strings (R40), and the sequencer's
updates that assemble them: the ALIGN_TICK, ENCODE_BYTE, RESET_GAP and completion rows of the step table
(spec/41_frame_sequencer.md R62 to R65). -/

namespace Sys2Proof.Machine

/-- BIT0.N: `010200` (R53, R40). -/
def pattern0N : List Code2 := [0#2, 1#2, 0#2, 2#2, 0#2, 0#2]

/-- BIT1.N: `010020` (R52, R40). -/
def pattern1N : List Code2 := [0#2, 1#2, 0#2, 0#2, 2#2, 0#2]

/-- BIT0.S: `01200` (R55, R40). -/
def pattern0S : List Code2 := [0#2, 1#2, 2#2, 0#2, 0#2]

/-- BIT1.S: `01002` (R54, R40). -/
def pattern1S : List Code2 := [0#2, 1#2, 0#2, 0#2, 2#2]

/-- `pattern({p, d})`: the pattern string of a profile and a data bit (R36, R51). -/
def pattern (p : Profile) (d : Bool) : List Code2 :=
  match p, d with
  | .normal, false => pattern0N
  | .normal, true => pattern1N
  | .slow, false => pattern0S
  | .slow, true => pattern1S

/-- `S.data <- (S.data << 1)[7:0]` (R41, R58, R69). -/
def shiftByte (d : Byte) : Byte := d <<< 1

/-- The format B code `{PROFILE, S.data[7]}` of the current bit symbol (R36, R51). -/
def State.symbolNow (s : State) (d : Byte) : Code2 := symbolCode s.cfg.profile (dataBit d)

/-- The channels of a color, latched (R61, R41). -/
def State.latchColor (s : State) (r g b : Byte) : State :=
  { s with r := some r, g := some g, b := some b }

/-- The byte encoded for the channel index `c` after green: red for 1, blue for 2 (R41, R63). -/
def State.channelByte (s : State) (c : BitVec 2) : Except Fault Byte :=
  if c = 1#2 then
    match s.r with
    | some v => .ok v
    | none => .error (.unwrittenField .r)
  else
    match s.b with
    | some v => .ok v
    | none => .error (.unwrittenField .b)

/-- The update of the ALIGN_TICK step once its wait has ended (R62). -/
def State.startColor (s : State) : Host.Outcome State Fault Refusal :=
  match s.g with
  | none => .fault (.unwrittenField .g)
  | some v =>
    .next { s with
      ch := some 0#2, data := some v, bit := some 0#3, step := some 0#3, phase := .encodeByte }

/-- The end of a byte: the next channel's byte, or after blue the next item (R63). -/
def State.byteDone (s : State) : Host.Outcome State Fault Refusal :=
  match s.ch with
  | none => .fault (.unwrittenField .ch)
  | some c =>
    if moreChannels c then
      match s.channelByte (c + 1#2) with
      | .error f => .fault f
      | .ok v => .next { s with ch := some (c + 1#2), data := some v }
    else .next { s with phase := .fetch }

/-- The end of a bit symbol: the byte shifts, and the next bit or the end of the byte follows (R63). -/
def State.symbolDone (s : State) : Host.Outcome State Fault Refusal :=
  match s.data with
  | none => .fault (.unwrittenField .data)
  | some d =>
    match s.bit with
    | none => .fault (.unwrittenField .bit)
    | some n =>
      if moreBits n then
        .next { s with step := some 0#3, data := some (shiftByte d), bit := some (n + 1#3) }
      else
        State.byteDone { s with step := some 0#3, data := some (shiftByte d), bit := some 0#3 }

/-- The ENCODE_BYTE step for a symbol with pattern `p` (R63): perform `P[S.step]`, then advance the
position. A wait still in progress holds the position. -/
def State.encodeStep (s : State) (p : List Code2) : Host.Outcome State Fault Refusal :=
  match s.step with
  | none => .fault (.unwrittenField .step)
  | some k =>
    match p[k.toNat]? with
    | none => .fault .offStepTable
    | some c =>
      match s.microOp c with
      | .next t =>
        if moreMicroOps k p.length then
          .next { t with step := some (if t.held c then k else k + 1#3) }
        else if t.held c then .next t
        else t.symbolDone
      | .fault f => .fault f
      | .refused q => .refused q

/-- `S.gap <- S.gap + 1` (R64). -/
def State.countGap (s : State) : Host.Outcome State Fault Refusal :=
  match s.gap with
  | none => .fault (.unwrittenField .gap)
  | some n => .next { s with gap := some (n + 1#8) }

/-- The completion step: DONE(OK), back to IDLE (R65, R82). -/
def State.complete (s : State) : State := { s.record (.done .ok) with phase := .idle }

end Sys2Proof.Machine
end

