-- ==== Sys2Proof/Machine/Driver.lean ====
section
/-! DEFINITION. The meanings of the format H operations (spec/42_driver.md section 2). A command outside
the phase that accepts it is refused: no step of the block, and a mark for the whole run (log 6). -/

namespace Sys2Proof.Machine

/-- NOP: no event, no state change (R80). -/
def execNop (s : State) : Host.Outcome State Fault Refusal := .next s

/-- WRITE (R78): in IDLE the item source holds the sequence and the write starts; elsewhere it is refused
(R79). -/
def execWrite (s : State) : Host.Outcome State Fault Refusal :=
  if s.phase = .idle then .next { s.record .cmdWrite with rest := s.offer, phase := .fetch }
  else .next (s.refuse .refusedWrite)

/-- NEW (R76), its first event: a block not yet built takes ownership and records NEW. Its SET_LOW and the
move to IDLE are the next step's (R88; `State.fetchPhase`, `State.advance`; log 24). Any later NEW is refused
(R77). -/
def execNew (s : State) : Host.Outcome State Fault Refusal :=
  if s.unbuilt then .next ({ s with owned := true }.record .new)
  else .next (s.refuse .refusedNew)

end Sys2Proof.Machine
end

