-- ==== Sys2Proof/Machine/Elements.lean ====
section
/-! DEFINITION. The meanings of the format S operations (spec/41_frame_sequencer.md section 4): the FETCH
row of the step table for the element returned (R61). What COLOR and END then cause (R66, R67) is done by
the steps that follow, from the phase this one leaves (log 9). -/

namespace Sys2Proof.Machine

/-- COLOR(r, g, b): record FETCH, latch the channels, on to the alignment wait (R61, R66). -/
def execColor (r g b : Byte) (s : State) : Host.Outcome State Fault Refusal :=
  .next { (s.record (.fetch (.color r g b))).latchColor r g b with phase := .alignTick }

/-- END: record FETCH, on to the reset gap (R61, R67). -/
def execEndSeq (s : State) : Host.Outcome State Fault Refusal :=
  .next { s.record (.fetch .endSeq) with gap := some 0#8, phase := .resetGap }

end Sys2Proof.Machine
end

