-- ==== Sys2Proof/Machine/MicroOps.lean ====
section
/-! DEFINITION. The meanings of the format U operations (spec/40_bit_encoder.md section 2). -/

namespace Sys2Proof.Machine

/-- WAIT_TICK (R48). -/
def execWaitTick (s : State) : Host.Outcome State Fault Refusal := .next s.waitTick

/-- SET_HIGH (R49). -/
def execSetHigh (s : State) : Host.Outcome State Fault Refusal := .next (s.pinSet .high)

/-- SET_LOW (R50). -/
def execSetLow (s : State) : Host.Outcome State Fault Refusal := .next (s.pinSet .low)

end Sys2Proof.Machine
end

