-- ==== Sys2Proof/Machine/Symbols.lean ====
section
/-! DEFINITION. The meanings of the format B operations (spec/40_bit_encoder.md section 3). A bit symbol
takes several steps; `S.step` says which of its micro-operations this step performs, and each step is the
ENCODE_BYTE row of the step table for the symbol's pattern (spec/41_frame_sequencer.md R63; log 9). -/

namespace Sys2Proof.Machine

/-- BIT0.N: `010200` (R53). -/
def execBit0N (s : State) : Host.Outcome State Fault Refusal := s.encodeStep pattern0N

/-- BIT1.N: `010020` (R52). -/
def execBit1N (s : State) : Host.Outcome State Fault Refusal := s.encodeStep pattern1N

/-- BIT0.S: `01200` (R55). -/
def execBit0S (s : State) : Host.Outcome State Fault Refusal := s.encodeStep pattern0S

/-- BIT1.S: `01002` (R54). -/
def execBit1S (s : State) : Host.Outcome State Fault Refusal := s.encodeStep pattern1S

end Sys2Proof.Machine
end

