-- ==== Sys2Proof/Machine/Dispatch.lean ====
section
/-! DEFINITION. One arm per operation of the opcode table. -/

namespace Sys2Proof.Machine

def exec (i : Instr) (s : State) : Host.Outcome State Fault Refusal :=
  match i with
  | .waitTick => Sys2Proof.Machine.execWaitTick s
  | .setHigh => Sys2Proof.Machine.execSetHigh s
  | .setLow => Sys2Proof.Machine.execSetLow s
  | .bit0N => Sys2Proof.Machine.execBit0N s
  | .bit1N => Sys2Proof.Machine.execBit1N s
  | .bit0S => Sys2Proof.Machine.execBit0S s
  | .bit1S => Sys2Proof.Machine.execBit1S s
  | .color r g b => Sys2Proof.Machine.execColor r g b s
  | .endSeq => Sys2Proof.Machine.execEndSeq s
  | .nop => Sys2Proof.Machine.execNop s
  | .write => Sys2Proof.Machine.execWrite s
  | .new => Sys2Proof.Machine.execNew s

end Sys2Proof.Machine
end

