-- ==== Sys2Proof/Machine/Fetch.lean ====
section
/-! DEFINITION. Which operation the next step performs, and what a step does around it. The position of
spec/10_state.md R13 names the event of the step; the host port is served when no command is in progress, or
when the host presents a command eagerly. -/

namespace Sys2Proof.Machine

/-- Where the step's operation comes from. -/
inductive Origin where
  /-- A host command (R38). -/
  | host
  /-- An element of the item stream (R37). -/
  | item
  /-- The SET_LOW of a construction (R76). -/
  | construct
  /-- The alignment wait (R62). -/
  | align
  /-- The current bit symbol (R63). -/
  | symbol
  /-- A wait of the reset gap (R64). -/
  | gap
  /-- A micro-operation listing (R44, log 8). -/
  | listing
  deriving DecidableEq, Repr

/-- What the position says of the next step. -/
inductive Fetched where
  /-- The block holds: no operation, no event. -/
  | hold (s : State)
  /-- The completion step is due (R65). -/
  | finish (s : State)
  /-- The position cannot be read. -/
  | stop (f : Fault)
  /-- The operation with this code, and the state in which it is performed. -/
  | op (o : Origin) (c : Code) (s : State)
  deriving DecidableEq, Repr

/-- The next element of the item source (R59, R61): the block holds until the source answers. -/
def State.fetchItem (s : State) : Fetched :=
  let t := { s with items := s.items.pop }
  if s.itemReadyNow then
    match s.rest.words with
    | w :: ws => .op .item (.s w) { t with rest := { s.rest with words := ws } }
    | [] =>
      if s.rest.endless then
        .op .item (.s (0#1 ++ s.colors.peek Config.endlessColor)) { t with colors := s.colors.pop }
      else .op .item (.s endWord) t
  else .hold t

/-- The next thing the host does (R84). A discarded block serves no command (R83); a discard is possible
only in IDLE (R83). -/
def State.fetchHost (s : State) : Fetched :=
  match s.host with
  | [] => .hold s
  | .cmd c seq _ :: rest =>
    if s.discarded then .hold s else .op .host (.h c) { s with host := rest, offer := seq }
  | .discard :: rest =>
    if s.phase = .idle then .hold { s with host := rest, owned := false } else .hold s

/-- The next operation of the command in progress, from the phase: the SET_LOW of NEW (R76), or a row of the
step table (R61 to R65). -/
def State.fetchPhase (s : State) : Fetched :=
  match s.phase with
  | .uninit => .op .construct (.u 0b10#2) s
  | .idle => .hold s
  | .fetch => s.fetchItem
  | .alignTick => .op .align (.u 0b00#2) s
  | .encodeByte =>
    match s.data with
    | none => .stop (.unwrittenField .data)
    | some d => .op .symbol (.b (s.symbolNow d)) s
  | .resetGap =>
    match s.gap with
    | none => .stop (.unwrittenField .gap)
    | some n =>
      if n.toNat < Config.gapTicks then .op .gap (.u 0b00#2) s
      else if n.toNat = Config.gapTicks then .finish s
      else .stop .offStepTable

/-- The next operation while no command is in progress: before construction a listing comes first (log 8);
else the host port is served, and an IDLE block performs nothing of its own (R98). -/
def State.fetchRest (s : State) : Fetched :=
  if s.unbuilt then
    match s.listing with
    | c :: cs => .op .listing (.u c) { s with listing := cs }
    | [] => s.fetchHost
  else s.fetchHost

/-- The next operation. While a command is in progress it goes on, unless the host presents another one
eagerly (D10). -/
def State.fetch (s : State) : Fetched :=
  if s.busy then
    if s.hostEager then s.fetchHost else s.fetchPhase
  else s.fetchRest

/-- What a step does after the operation `i` from `o` has led to `s`: the position's update (R62, R64, R76); a
listing's wait still in progress stays at the listing's head. -/
def State.advance (s : State) (o : Origin) (i : Instr) : Host.Outcome State Fault Refusal :=
  match o with
  | .host => .next s
  | .item => .next s
  | .symbol => .next s
  | .construct => .next { s with phase := .idle }
  | .align => if s.waiting then .next s else s.startColor
  | .gap => if s.waiting then .next s else s.countGap
  | .listing =>
    .next { s with
      listing := if i = .waitTick ∧ s.waiting = true then 0b00#2 :: s.listing else s.listing }

/-- A code with no operation: the reserved micro-operation is a fault, the reserved host code is refused
and marked (R42, R81, R91). -/
def State.reject (s : State) : DecodeError → Host.Outcome State Fault Refusal
  | .reservedMicroop => .fault .reservedMicroop
  | .refusedHostCode => .next (s.refuse .refusedHostCode)

/-- The state with the code placed where the next step fetches it: a micro-operation at the head of the
listing of a block not yet built, a bit symbol as the current symbol of a byte whose fields are written, an element at the head of an answering item source, a command
at the host port (log 16). -/
def State.place (s : State) : Code → State
  | .u c => { s with listing := c :: s.listing, phase := .uninit, owned := false }
  | .b code =>
    { s with
      host := []
      phase := .encodeByte
      cfg := { s.cfg with profile := if code[1] then .slow else .normal }
      data := some (if code[0] then 0x80#8 else 0x00#8)
      step := some 0#3
      bit := some (s.bit.getD 0#3)
      ch := some (s.ch.getD 0#2)
      r := some (s.r.getD 0#8)
      b := some (s.b.getD 0#8)
      owned := true }
  | .s w =>
    { s with
      host := []
      phase := .fetch
      owned := true
      items := { s.items with script := true :: s.items.script }
      rest := { s.rest with words := w :: s.rest.words } }
  | .h c =>
    { s with
      listing := []
      owned := s.owned || decide (s.phase = .idle)
      host := .cmd c s.offer true :: s.host }

end Sys2Proof.Machine
end

