-- ==== Sys2Proof/Machine/Step.lean ====
section
/-! DEFINITION. One step: the tick source's edges, then the operation the position names, decoded and
performed, then the position's update. -/

namespace Sys2Proof.Machine

/-- Perform a fetched code: decode it, run it, advance the position. -/
def State.perform (s : State) (o : Origin) (c : Code) : Host.Outcome State Fault Refusal :=
  match decode c with
  | .error e => s.reject e
  | .ok i =>
    match exec i s with
    | .next t => t.advance o i
    | .fault f => .fault f
    | .refused q => .refused q

/-- One step of the machine (spec/41_frame_sequencer.md section 3): at most one event of a port, or a
hold. -/
def step (s : State) : Host.Outcome State Fault Refusal :=
  match s.tickEdges.fetch with
  | .hold t => .next t
  | .finish t => .next t.complete
  | .stop f => .fault f
  | .op o c t => t.perform o c

/-- The state with a bare table word placed where the next step fetches it; unchanged when the word is no
table word (log 15, log 16). -/
def State.withFetchWord (s : State) (nbits w : Nat) : State :=
  match tableCode nbits w with
  | some c => s.place c
  | none => s

end Sys2Proof.Machine
end

