-- ==== Sys2Proof/Machine/Listing.lean ====
section
/-! DEFINITION. Micro-operation listings: the pseudo-instructions of spec/30_encoding.md R45 and their
expansions, which also spell the grammar of a write (R43). -/

namespace Sys2Proof.Machine

/-- The pseudo-instructions of a micro-operation listing (R45), and the three micro-operations it is
written in (R44). -/
inductive Pseudo where
  | wait
  | high
  | low
  | waitN (n : Nat)
  | bit (d : Bool)
  | byte (v : Byte)
  | align
  | color (r g b : Byte)
  | gap
  | frame (colors : List (Byte × Byte × Byte))
  deriving DecidableEq, Repr

/-- The data bits of a byte in the order they are sent: bit 7 first (R41, R58). -/
def byteBits (v : Byte) : List Bool :=
  [v[7], v[6], v[5], v[4], v[3], v[2], v[1], v[0]]

/-- `BYTE v` (R45, R58). -/
def byteCodes (p : Profile) (v : Byte) : List Code2 := (byteBits v).flatMap (pattern p)

/-- `COLOR r, g, b`: the alignment wait, then green, red, blue (R45, R68). -/
def colorCodes (p : Profile) (r g b : Byte) : List Code2 :=
  0#2 :: (byteCodes p g ++ byteCodes p r ++ byteCodes p b)

/-- `WAIT n` (R45, R40 `0^n`). -/
def waitCodes (n : Nat) : List Code2 := List.replicate n 0#2

/-- `GAP`: 160 waits (R45, R64). -/
def gapCodes : List Code2 := waitCodes Config.gapTicks

/-- `FRAME c1, …, cN` (R45, R43): what one write performs on the line and the tick source. -/
def frameCodes (p : Profile) (colors : List (Byte × Byte × Byte)) : List Code2 :=
  colors.flatMap (fun c => colorCodes p c.1 c.2.1 c.2.2) ++ gapCodes

/-- The expansion of one line of a listing for a block of profile `p` (R44, R45). -/
def Pseudo.expand (p : Profile) : Pseudo → List Code2
  | .wait => [0#2]
  | .high => [1#2]
  | .low => [2#2]
  | .waitN n => waitCodes n
  | .bit d => pattern p d
  | .byte v => byteCodes p v
  | .align => waitCodes 1
  | .color r g b => colorCodes p r g b
  | .gap => gapCodes
  | .frame colors => frameCodes p colors

/-- A listing as the pattern string it stands for (R40, R44). -/
def assemble (p : Profile) (lines : List Pseudo) : List Code2 := lines.flatMap (Pseudo.expand p)

end Sys2Proof.Machine
end

