-- ==== Sys2Proof/WellFormed.lean ====
section
/-! DEFINITION. Which operations a built block uses, and what its parameters must be. Every term of
`Instr` is a legal operation: the channels of a color carry their 8-bit range in their type
(spec/41_frame_sequencer.md R66, "every channel value 0..255 is legal"). -/

namespace Sys2Proof

/-- Whether a block built with profile `p` can perform the operation: it never selects a bit symbol of
the other profile (R36, R42, R51); every other operation belongs to both profiles. -/
def Instr.wellFormed (p : Profile) : Instr → Bool
  | .bit0N => p == .normal
  | .bit1N => p == .normal
  | .bit0S => p == .slow
  | .bit1S => p == .slow
  | .waitTick => true
  | .setHigh => true
  | .setLow => true
  | .color _ _ _ => true
  | .endSeq => true
  | .nop => true
  | .write => true
  | .new => true

/-- The tick rate the block requires for its output to meet the protocol and never checks (R3, R102). -/
def Params.meetsRate (c : Params) : Bool := c.tickHz == 3000000

end Sys2Proof
end

