-- ==== Sys2Proof/Safety.lean ====
section
/-! DEFINITION. The terms in which claims about runs are stated: the events of a write as the grammar of
spec/30_encoding.md R43 gives them, what is left of a running write, the invariants of the step table, and
what two states look like when the environment's failures are left out of sight. -/

namespace Sys2Proof.Machine

/-- An event without the answer the environment gave: every wait as ended by a tick, every pin command as
answered OK. The block's sequence of events does not depend on what this forgets (R86). -/
def eventShape : Event → Event
  | .new => .new
  | .cmdWrite => .cmdWrite
  | .fetch e => .fetch e
  | .wait _ => .wait .tick
  | .pin level _ => .pin level .ok
  | .done result => .done result

/-- The trace as the shapes of its events, oldest first. -/
def State.shapes (s : State) : List Event := s.log.map (fun e => eventShape e.event)

/-- The shape of the event a micro-operation records (R48, R49, R50). -/
def codeEvent (c : Code2) : Event :=
  if c = 0#2 then .wait .tick
  else if c = 1#2 then .pin .high .ok
  else .pin .low .ok

/-- The events of one color of a write: its FETCH, then the micro-operations of `COLOR r, g, b` (R60). -/
def colorEvents (p : Profile) (c : Byte × Byte × Byte) : List Event :=
  .fetch (.color c.1 c.2.1 c.2.2) :: (colorCodes p c.1 c.2.1 c.2.2).map codeEvent

/-- The events that end a write: FETCH(END), the reset gap, DONE(OK) (R60). -/
def closingEvents : List Event :=
  .fetch .endSeq :: (gapCodes.map codeEvent ++ [.done .ok])

/-- The events of one write after CMD(WRITE), as the procedure form gives them (R60). -/
def frameEvents (p : Profile) (colors : List (Byte × Byte × Byte)) : List Event :=
  colors.flatMap (colorEvents p) ++ closingEvents

/-- The colors of a sequence up to its END (R21, R37). -/
def streamColors : List ElementWord → List (Byte × Byte × Byte)
  | [] => []
  | w :: ws =>
    if w[24] then []
    else (w.extractLsb' 16 8, w.extractLsb' 8 8, w.extractLsb' 0 8) :: streamColors ws

/-- The micro-operations left of the byte being encoded: the rest of the current symbol, then the symbols
of the bits not yet begun (R63). -/
def byteLeft (p : Profile) (d : Byte) (n : BitVec 3) (k : BitVec 3) : List Code2 :=
  (pattern p (dataBit d)).drop k.toNat ++ (((byteBits d).take (8 - n.toNat)).drop 1).flatMap (pattern p)

/-- The micro-operations of the channels after channel `c` (R68). -/
def channelsLeft (p : Profile) (c : BitVec 2) (r b : Byte) : List Code2 :=
  if c = 0#2 then byteCodes p r ++ byteCodes p b
  else if c = 1#2 then byteCodes p b
  else []

/-- The events a running write has still to record, read off the position, the current color and the
elements left at the item source. -/
def State.plan (s : State) : List Event :=
  let ahead := frameEvents s.cfg.profile (streamColors s.rest.words)
  match s.phase with
  | .uninit => []
  | .idle => []
  | .fetch => ahead
  | .alignTick =>
    (colorCodes s.cfg.profile (s.r.getD 0#8) (s.g.getD 0#8) (s.b.getD 0#8)).map codeEvent ++ ahead
  | .encodeByte =>
    (byteLeft s.cfg.profile (s.data.getD 0#8) (s.bit.getD 0#3) (s.step.getD 0#3)
      ++ channelsLeft s.cfg.profile (s.ch.getD 0#2) (s.r.getD 0#8) (s.b.getD 0#8)).map codeEvent ++ ahead
  | .resetGap =>
    (waitCodes (Config.gapTicks - (s.gap.getD 0#8).toNat)).map codeEvent ++ [.done .ok]

/-- Whether the position's next micro-operation is a WAIT_TICK. -/
def State.waitDue (s : State) : Bool :=
  match s.phase with
  | .uninit => !s.owned && s.listing.head? == some 0#2
  | .idle => false
  | .fetch => false
  | .alignTick => true
  | .encodeByte =>
    (pattern s.cfg.profile (dataBit (s.data.getD 0#8)))[(s.step.getD 0#3).toNat]? == some 0#2
  | .resetGap => decide ((s.gap.getD 0#8).toNat < Config.gapTicks)

/-- What the phase promises of the fields it reads: they are written and inside the ranges of R12. -/
def State.inRange (s : State) : Bool :=
  match s.phase with
  | .uninit => true
  | .idle => true
  | .fetch => true
  | .alignTick => s.r.isSome && s.g.isSome && s.b.isSome
  | .encodeByte =>
    s.r.isSome && s.b.isSome && s.data.isSome && s.bit.isSome
      && s.ch.isSome && decide ((s.ch.getD 0#2).toNat ≤ 2)
      && s.step.isSome && decide ((s.step.getD 0#3).toNat < Config.symbolLength s.cfg.profile)
  | .resetGap => s.gap.isSome && decide ((s.gap.getD 0#8).toNat ≤ Config.gapTicks)

/-- The invariant of the step table: the fields the phase reads are written and in range (R12, R24, R69),
a wait in progress stands at a position that waits (R48), a running write belongs to an owning block (R75),
before IDLE no field has been written (R24), and a listing holds no reserved code (R42). -/
structure State.Inv (s : State) : Prop where
  range : s.inRange = true
  wait : s.waiting = true → s.waitDue = true
  owner : s.phase.quiet = false → s.owned = true
  fresh : s.phase = .uninit → s.r = none ∧ s.g = none ∧ s.b = none ∧ s.ch = none ∧ s.data = none
    ∧ s.bit = none ∧ s.step = none ∧ s.gap = none
  codes : ∀ c ∈ s.listing, c ≠ 3#2

/-- An event without the answer of a pin command (R47). -/
def pinErased : Event → Event
  | .new => .new
  | .cmdWrite => .cmdWrite
  | .fetch e => .fetch e
  | .wait how => .wait how
  | .pin level _ => .pin level .ok
  | .done result => .done result

/-- The state with everything a pin command's failure can touch left out: the line's level, the draws of
the pin, and in the trace the pin answers and the line's levels (R47, R86). -/
def State.pinBlind (s : State) : State :=
  { s with
    line := .low
    pins := Draws.fresh PinDraw
    log := s.log.map (fun e => { e with line := .low, event := pinErased e.event }) }

/-- The state with another tick rate and other latencies (R3, D14). -/
def State.withTiming (s : State) (tickHz tPin tStep tFetch slowZeroHigh : Nat) : State :=
  { s with
    cfg := { s.cfg with
      tickHz := tickHz, tPin := tPin, tStep := tStep, tFetch := tFetch, slowZeroHigh := slowZeroHigh } }

/-- An outcome with its state changed by `f`. -/
def mapOutcome (f : State → State) :
    Host.Outcome State Fault Refusal → Host.Outcome State Fault Refusal
  | .next s => .next (f s)
  | .fault r => .fault r
  | .refused q => .refused q

/-- The state after one micro-operation of a pattern: WAIT_TICK, SET_HIGH or SET_LOW by its digit (R40). -/
def afterMicroOp (c : Code2) (s : State) : State :=
  if c = 0#2 then s.waitTick
  else if c = 1#2 then s.pinSet .high
  else s.pinSet .low

/-- Whether the block holds its position after the micro-operation: it is a wait still in progress (R48). -/
def holdsAfter (c : Code2) (s : State) : Prop := c = 0#2 ∧ (afterMicroOp c s).waiting = true

/-- The four bit symbols with their pattern strings, as spec/30_encoding.md R40 lists them. -/
def symbolTable : List (Instr × List Code2) :=
  [(.bit0N, [0#2, 1#2, 0#2, 2#2, 0#2, 0#2]),
   (.bit1N, [0#2, 1#2, 0#2, 0#2, 2#2, 0#2]),
   (.bit0S, [0#2, 1#2, 2#2, 0#2, 0#2]),
   (.bit1S, [0#2, 1#2, 0#2, 0#2, 2#2])]

/-- One trace entry. -/
def entry (ticks : Nat) (event : Event) (line : Level) : Entry where
  ticks := ticks
  event := event
  line := line

/-- A running write at the start of a bit symbol for data bit `d` under profile `p`, with the host silent, no
tick pending, `TICK_LATCH = 1`, polls that do not fail, tick edges before the coming steps as `edges` says,
and pin draws `d1` and `d2` for the symbol's two commands (the situation of vectors B1 to B5). -/
structure AtSymbolStart (s : State) (p : Profile) (d : Bool) (edges : List Nat) (d1 d2 : PinDraw) : Prop where
  inv : s.Inv
  phase : s.phase = .encodeByte
  profile : s.cfg.profile = p
  bit : dataBit (s.data.getD 0#8) = d
  start : s.step = some 0#3
  silent : s.host = []
  fresh : s.waiting = false
  none : s.pending = false
  latch : s.cfg.tickLatch = true
  sure : s.cfg.tickMayFail = false
  ticking : ∃ more, s.edges.script = edges ++ more
  pins : ∃ more, s.pins.script = d1 :: d2 :: more

/-- How often an event that satisfies `f` occurs. -/
def countEvents (f : Event → Bool) (es : List Event) : Nat := (es.filter f).length

/-- WAIT events (R22). -/
def isWait : Event → Bool
  | .wait _ => true
  | .new => false
  | .cmdWrite => false
  | .fetch _ => false
  | .pin _ _ => false
  | .done _ => false

/-- PIN events (R22). -/
def isPin : Event → Bool
  | .pin _ _ => true
  | .new => false
  | .cmdWrite => false
  | .fetch _ => false
  | .wait _ => false
  | .done _ => false

/-- FETCH events (R22). -/
def isFetch : Event → Bool
  | .fetch _ => true
  | .new => false
  | .cmdWrite => false
  | .wait _ => false
  | .pin _ _ => false
  | .done _ => false

/-- DONE events (R22). -/
def isDone : Event → Bool
  | .done _ => true
  | .new => false
  | .cmdWrite => false
  | .fetch _ => false
  | .wait _ => false
  | .pin _ _ => false

/-- The events of the trace, oldest first (R22). -/
def State.events (s : State) : List Event := s.log.map (fun e => e.event)

/-- NEW has been recorded exactly once, or not at all while the block is not built (R77). -/
def State.NewOnce (s : State) : Prop :=
  countEvents (fun e => e == .new) s.events = if s.unbuilt then 0 else 1

/-- Every accepted write but a running one is completed (R65, R74). -/
def State.WritesBalance (s : State) : Prop :=
  countEvents (fun e => e == .cmdWrite) s.events
    = countEvents isDone s.events + (if s.phase.quiet then 0 else 1)

/-- No write has reported the error kind WRITE_FAILED (R82, R85). -/
def State.NoFailure (s : State) : Prop := ∀ e ∈ s.log, e.event ≠ .done .writeFailed

/-- Where the transient fields stand between colors and between writes (R24): never written, or spent by the
last color; inside a byte, the bits shifted in are zero (R58); the gap counter outside a gap was never
written or is 160. -/
def State.Spent (s : State) : Prop :=
  (s.phase ≠ .encodeByte →
    (s.ch = none ∧ s.data = none ∧ s.bit = none ∧ s.step = none)
      ∨ (s.ch = some 2#2 ∧ s.data = some 0#8 ∧ s.bit = some 0#3 ∧ s.step = some 0#3))
  ∧ (s.phase = .encodeByte → ∀ (d : Byte) (n : BitVec 3), s.data = some d → s.bit = some n →
      d.toNat % 2 ^ n.toNat = 0)
  ∧ (s.phase ≠ .resetGap → s.gap = none ∨ s.gap = some 160#8)

/-- A tick source that ticks before each of the next `n` steps and an item source that answers each of the
next `n` requests. -/
def State.Served (s : State) (n : Nat) : Prop :=
  (∃ more, s.edges.script = List.replicate n 1 ++ more) ∧ (∃ more, s.items.script = List.replicate n true ++ more)

end Sys2Proof.Machine
end

