-- ==== Sys2Proof/Certificates/Slice0/Obligations.lean ====
section
/-! DEFINITION. The statements for the provers, one definition each, from the numbered rules of spec/. An
equation `exec i s = .next {s with …}` says what the operation writes and, by naming no other field, that
every other field of the state is unchanged. -/

open Sys2Proof Sys2Proof.Machine

/-! ### Encodings -/

/-- Words written out from the tables of spec/30_encoding.md and the vectors F1, F3 to F10 of
spec/95_test_vectors.md decode to their operations. -/
def Obligations.SpecWordsDecode : Prop :=
  decode (.u 0b00#2) = .ok .waitTick ∧ decode (.u 0b01#2) = .ok .setHigh ∧ decode (.u 0b10#2) = .ok .setLow
    ∧ decode (.b 0b00#2) = .ok .bit0N ∧ decode (.b 0b01#2) = .ok .bit1N
    ∧ decode (.b 0b10#2) = .ok .bit0S ∧ decode (.b 0b11#2) = .ok .bit1S
    ∧ decode (.s 0x0FF0080#25) = .ok (.color 255#8 0#8 128#8) ∧ decode (.s 0x08001FF#25) = .ok (.color 128#8 1#8 255#8)
    ∧ decode (.s 0x1000000#25) = .ok .endSeq ∧ decode (.s 0x1ABCDEF#25) = .ok .endSeq
    ∧ decode (.h 0b00#2) = .ok .nop ∧ decode (.h 0b01#2) = .ok .write ∧ decode (.h 0b10#2) = .ok .new

/-- Decode and encode agree: every operation, with every channel value, is decoded from its own code, and
every code that decodes is the code of its operation, but for END, whose payload is ignored (R35 to R38,
R42). -/
def Obligations.DecodeAndEncodeAgree : Prop :=
  (∀ i : Instr, decode (encode i) = .ok i)
    ∧ ∀ (c : Code) (i : Instr), decode c = .ok i →
        encode i = c ∨ (i = .endSeq ∧ ∃ w : ElementWord, c = .s w ∧ w[24] = true)

/-- Exactly two codes have no operation, and each is rejected by its own name (R42). -/
def Obligations.ReservedCodesRejectedByName : Prop :=
  ∀ (c : Code) (e : DecodeError), decode c = .error e ↔
    (c = .u 0b11#2 ∧ e = .reservedMicroop) ∨ (c = .h 0b11#2 ∧ e = .refusedHostCode)

/-- The bits of a color leave in the order of the word `{g, r, b}`, with `g` in bits 23:16, `r` in 15:8 and
`b` in 7:0, bit 23 first, each as one bit symbol, after the alignment wait (R39). -/
def Obligations.ColorSentAsLineWord : Prop :=
  ∀ (p : Profile) (r g b : Byte),
    (lineWord r g b).extractLsb' 16 8 = g ∧ (lineWord r g b).extractLsb' 8 8 = r
    ∧ (lineWord r g b).extractLsb' 0 8 = b
    ∧ colorCodes p r g b
      = 0#2 :: (List.range 24).flatMap (fun j => pattern p ((lineWord r g b).getLsbD (23 - j)))

/-- The byte loop: the data bit after `i` shifts is bit `7 - i` of the byte, and eight shifts leave zero
(R58). -/
def Obligations.ByteShiftsOutMsbFirst : Prop :=
  ∀ v : Byte, (∀ i : Nat, i < 8 → dataBit (shiftByte^[i] v) = v.getLsbD (7 - i)) ∧ shiftByte^[8] v = 0#8
    ∧ byteBits v = (List.range 8).map (fun i => dataBit (shiftByte^[i] v))

/-- The mnemonics WAIT, HIGH and LOW are the digits 0, 1 and 2 (R44, R40), the pseudo-instructions of a listing
expand as R45 says, BIT to the pattern R40 lists for the code `{PROFILE, d}`, and the string of a listing is that
of its lines, one after the other. -/
def Obligations.PseudoInstructionsExpand : Prop :=
  ∀ p : Profile,
    Pseudo.wait.expand p = [0#2] ∧ Pseudo.high.expand p = [1#2] ∧ Pseudo.low.expand p = [2#2]
    ∧ (∀ n : Nat, (Pseudo.waitN n).expand p = List.replicate n 0#2)
    ∧ (∀ d : Bool, (Pseudo.bit d).expand p = pattern p d
        ∧ (decodeB (symbolCode p d), (Pseudo.bit d).expand p) ∈ symbolTable)
    ∧ (∀ v : Byte, (Pseudo.byte v).expand p
        = [v[7], v[6], v[5], v[4], v[3], v[2], v[1], v[0]].flatMap (fun d => (Pseudo.bit d).expand p))
    ∧ Pseudo.align.expand p = Pseudo.wait.expand p
    ∧ (∀ r g b : Byte, (Pseudo.color r g b).expand p
        = Pseudo.align.expand p ++ (Pseudo.byte g).expand p ++ (Pseudo.byte r).expand p ++ (Pseudo.byte b).expand p)
    ∧ Pseudo.gap.expand p = (Pseudo.waitN 160).expand p
    ∧ (∀ cs : List (Byte × Byte × Byte), (Pseudo.frame cs).expand p
        = cs.flatMap (fun c => (Pseudo.color c.1 c.2.1 c.2.2).expand p) ++ Pseudo.gap.expand p)
    ∧ (∀ lines : List Pseudo, assemble p lines = lines.flatMap (Pseudo.expand p))
    ∧ (∀ line : Pseudo, assemble p [line] = line.expand p)
    ∧ (∀ a b : List Pseudo, assemble p (a ++ b) = assemble p a ++ assemble p b)

/-- The grammar of a write is unambiguous: two sequences of colors with one micro-operation string are the
same sequence (R43). -/
def Obligations.FrameStringDeterminesColors : Prop :=
  ∀ (p : Profile) (cs cs' : List (Byte × Byte × Byte)), frameCodes p cs = frameCodes p cs' → cs = cs'

/-! ### Micro-operations -/

/-- The tick source's action before a step: any edge sets `tick.pending`, edges while it is set are lost
(R46). The clock that counts them is the model's own (log 14). -/
def Obligations.TickEdgesSetPending : Prop :=
  ∀ s : State,
    s.tickEdges = { s with
      edges := s.edges.pop
      clock := s.clock + s.edgesNow
      pending := s.pending || decide (0 < s.edgesNow) }

/-- One poll of WAIT_TICK (R46, R48): an ERROR ends the wait and leaves a tick that counts pending; a tick
that counts ends it and is consumed; otherwise the wait is still in progress. A tick counts when
TICK_LATCH = 1 or the wait had begun, and a poll can fail only when TICK_MAY_FAIL. -/
def Obligations.WaitTickPolls : Prop :=
  ∀ s : State,
    (s.pollFailsNow = true → s.cfg.tickMayFail = true)
    ∧ (s.pollFailsNow = true →
      exec .waitTick s = .next { s with
        polls := s.polls.pop
        waiting := false
        pending := s.pending && (s.cfg.tickLatch || s.waiting)
        log := s.log ++ [entry s.clock (.wait .error) s.line] })
    ∧ (s.pollFailsNow = false → (s.pending && (s.cfg.tickLatch || s.waiting)) = true →
      exec .waitTick s = .next { s with
        polls := s.polls.pop
        waiting := false
        pending := false
        log := s.log ++ [entry s.clock (.wait .tick) s.line] })
    ∧ (s.pollFailsNow = false → (s.pending && (s.cfg.tickLatch || s.waiting)) = false →
      exec .waitTick s = .next { s with polls := s.polls.pop, waiting := true, pending := false })

/-- SET_HIGH (R49), format U code 01 and digit 1 of a pattern string: the line takes HIGH when the answer is
OK and the drawn level when it is ERR; the command is recorded and nothing else changes. -/
def Obligations.SetHighCommandsLine : Prop :=
  decode (.u 0b01#2) = .ok .setHigh ∧ ∀ s : State,
    s.microOp 1#2 = exec .setHigh s
    ∧ (s.pinNow = .ok →
      exec .setHigh s = .next { s with
        pins := s.pins.pop, line := .high, log := s.log ++ [entry s.clock (.pin .high .ok) .high] })
    ∧ ∀ after : Level, s.pinNow = .err after →
      exec .setHigh s = .next { s with
        pins := s.pins.pop, line := after, log := s.log ++ [entry s.clock (.pin .high .err) after] }

/-- SET_LOW (R50), format U code 10 and digit 2 of a pattern string: as SET_HIGH with the levels swapped. -/
def Obligations.SetLowCommandsLine : Prop :=
  decode (.u 0b10#2) = .ok .setLow ∧ ∀ s : State,
    s.microOp 2#2 = exec .setLow s
    ∧ (s.pinNow = .ok →
      exec .setLow s = .next { s with
        pins := s.pins.pop, line := .low, log := s.log ++ [entry s.clock (.pin .low .ok) .low] })
    ∧ ∀ after : Level, s.pinNow = .err after →
      exec .setLow s = .next { s with
        pins := s.pins.pop, line := after, log := s.log ++ [entry s.clock (.pin .low .err) after] }

/-! ### Bit symbols -/

/-- A bit symbol performs the micro-operation `P[S.step]`; while the symbol is not complete the position
moves to the next micro-operation, or holds while a wait is in progress (R63). That one execution of a symbol
is one ENCODE_BYTE step is the model's reading (log 9, DEDUCED); that it has this effect in every phase and
whatever the profile and data bit is the model's choice (log 23, DESIGN CHOICE). -/
def Obligations.SymbolPerformsNextMicroOp : Prop :=
  ∀ (i : Instr) (p : List Code2), (i, p) ∈ symbolTable → ∀ (s : State) (k : BitVec 3) (c : Code2),
    s.step = some k → k.toNat + 1 < p.length → p[k.toNat]? = some c →
      (holdsAfter c s → exec i s = .next (afterMicroOp c s))
      ∧ (¬ holdsAfter c s → exec i s = .next { afterMicroOp c s with step := some (k + 1#3) })

/-- The last micro-operation of a symbol that is not the byte's last shifts the byte and counts the bit
(R63, R69). One execution of a symbol is one ENCODE_BYTE step (log 9, DEDUCED), with this effect in every phase
and under either profile (log 23, DESIGN CHOICE). -/
def Obligations.SymbolEndShiftsByte : Prop :=
  ∀ (i : Instr) (p : List Code2), (i, p) ∈ symbolTable →
    ∀ (s : State) (k n : BitVec 3) (c : Code2) (d : Byte),
      s.step = some k → k.toNat + 1 = p.length → p[k.toNat]? = some c →
      s.data = some d → s.bit = some n → n.toNat < 7 →
        (holdsAfter c s → exec i s = .next (afterMicroOp c s))
        ∧ (¬ holdsAfter c s → exec i s = .next { afterMicroOp c s with
            step := some 0#3, data := some (d <<< 1), bit := some (n + 1#3) })

/-- The end of the green byte loads the red one, and the end of the red byte loads the blue one (R63, R68).
One execution of a symbol is one ENCODE_BYTE step (log 9, DEDUCED), with this effect in every phase and under
either profile (log 23, DESIGN CHOICE). -/
def Obligations.ByteEndLoadsNextChannel : Prop :=
  ∀ (i : Instr) (p : List Code2), (i, p) ∈ symbolTable →
    ∀ (s : State) (k : BitVec 3) (c : Code2) (d v : Byte) (h : BitVec 2),
      s.step = some k → k.toNat + 1 = p.length → p[k.toNat]? = some c →
      s.data = some d → s.bit = some 7#3 → s.ch = some h →
      ((h = 0#2 ∧ s.r = some v) ∨ (h = 1#2 ∧ s.b = some v)) →
        (holdsAfter c s → exec i s = .next (afterMicroOp c s))
        ∧ (¬ holdsAfter c s → exec i s = .next { afterMicroOp c s with
            step := some 0#3, data := some v, bit := some 0#3, ch := some (h + 1#2) })

/-- The end of the blue byte ends the color: the next item is asked for, and the shifted byte stays (R63).
One execution of a symbol is one ENCODE_BYTE step (log 9, DEDUCED), with this effect in every phase and under
either profile (log 23, DESIGN CHOICE). -/
def Obligations.ColorEndAsksNextItem : Prop :=
  ∀ (i : Instr) (p : List Code2), (i, p) ∈ symbolTable →
    ∀ (s : State) (k : BitVec 3) (c : Code2) (d : Byte),
      s.step = some k → k.toNat + 1 = p.length → p[k.toNat]? = some c →
      s.data = some d → s.bit = some 7#3 → s.ch = some 2#2 →
        (holdsAfter c s → exec i s = .next (afterMicroOp c s))
        ∧ (¬ holdsAfter c s → exec i s = .next { afterMicroOp c s with
            step := some 0#3, data := some (d <<< 1), bit := some 0#3, phase := .fetch })

/-- Where a bit symbol stops instead: its position was never written (UNWRITTEN_FIELD, R91), or lies past
its pattern (the model's own fault, log 12). -/
def Obligations.SymbolStopsOffItsPattern : Prop :=
  ∀ (i : Instr) (p : List Code2), (i, p) ∈ symbolTable → ∀ s : State,
    (s.step = none → exec i s = .fault (.unwrittenField .step))
    ∧ ∀ k : BitVec 3, s.step = some k → p.length ≤ k.toNat → exec i s = .fault .offStepTable

/-- BIT1.N (R52) under the ideal schedule: wait, HIGH, wait, wait, LOW, wait; the line is high for two tick
periods. -/
def Obligations.Bit1NormalWaveform : Prop :=
  ∀ (s : State) (d1 d2 : PinDraw), AtSymbolStart s .normal true [1, 0, 1, 1, 0, 1] d1 d2 →
    ∃ t, core.run 6 s = .next t ∧ t.line = levelAfter .low d2 ∧ t.log = s.log ++
      [entry (s.clock + 1) (.wait .tick) s.line,
       entry (s.clock + 1) (.pin .high (answerOf d1)) (levelAfter .high d1),
       entry (s.clock + 2) (.wait .tick) (levelAfter .high d1),
       entry (s.clock + 3) (.wait .tick) (levelAfter .high d1),
       entry (s.clock + 3) (.pin .low (answerOf d2)) (levelAfter .low d2),
       entry (s.clock + 4) (.wait .tick) (levelAfter .low d2)]

/-- BIT0.N (R53) under the ideal schedule: wait, HIGH, wait, LOW, wait, wait; the line is high for one tick
period. -/
def Obligations.Bit0NormalWaveform : Prop :=
  ∀ (s : State) (d1 d2 : PinDraw), AtSymbolStart s .normal false [1, 0, 1, 0, 1, 1] d1 d2 →
    ∃ t, core.run 6 s = .next t ∧ t.line = levelAfter .low d2 ∧ t.log = s.log ++
      [entry (s.clock + 1) (.wait .tick) s.line,
       entry (s.clock + 1) (.pin .high (answerOf d1)) (levelAfter .high d1),
       entry (s.clock + 2) (.wait .tick) (levelAfter .high d1),
       entry (s.clock + 2) (.pin .low (answerOf d2)) (levelAfter .low d2),
       entry (s.clock + 3) (.wait .tick) (levelAfter .low d2),
       entry (s.clock + 4) (.wait .tick) (levelAfter .low d2)]

/-- BIT1.S (R54) under the ideal schedule: wait, HIGH, wait, wait, LOW; no wait follows the LOW. -/
def Obligations.Bit1SlowWaveform : Prop :=
  ∀ (s : State) (d1 d2 : PinDraw), AtSymbolStart s .slow true [1, 0, 1, 1, 0] d1 d2 →
    ∃ t, core.run 5 s = .next t ∧ t.line = levelAfter .low d2 ∧ t.log = s.log ++
      [entry (s.clock + 1) (.wait .tick) s.line,
       entry (s.clock + 1) (.pin .high (answerOf d1)) (levelAfter .high d1),
       entry (s.clock + 2) (.wait .tick) (levelAfter .high d1),
       entry (s.clock + 3) (.wait .tick) (levelAfter .high d1),
       entry (s.clock + 3) (.pin .low (answerOf d2)) (levelAfter .low d2)]

/-- BIT0.S (R55) under the ideal schedule: wait, HIGH, LOW, wait, wait; no wait separates the two commands. -/
def Obligations.Bit0SlowWaveform : Prop :=
  ∀ (s : State) (d1 d2 : PinDraw), AtSymbolStart s .slow false [1, 0, 0, 1, 1] d1 d2 →
    ∃ t, core.run 5 s = .next t ∧ t.line = levelAfter .low d2 ∧ t.log = s.log ++
      [entry (s.clock + 1) (.wait .tick) s.line,
       entry (s.clock + 1) (.pin .high (answerOf d1)) (levelAfter .high d1),
       entry (s.clock + 1) (.pin .low (answerOf d2)) (levelAfter .low d2),
       entry (s.clock + 2) (.wait .tick) (levelAfter .low d2),
       entry (s.clock + 3) (.wait .tick) (levelAfter .low d2)]

/-! ### Stream elements -/

/-- COLOR as the item returned (R61): FETCH is recorded, the channels are latched unchanged, and the
alignment wait is next. One execution of COLOR is the FETCH step (log 9, DEDUCED); that it has this effect in
the phases other than FETCH too is the model's choice (log 23, DESIGN CHOICE). -/
def Obligations.ColorLatchesChannels : Prop :=
  ∀ (r g b : Byte) (s : State),
    exec (.color r g b) s = .next { s with
      log := s.log ++ [entry s.clock (.fetch (.color r g b)) s.line]
      r := some r, g := some g, b := some b, phase := .alignTick }

/-- END as the item returned (R61): FETCH is recorded and the reset gap is next. One execution of END is the
FETCH step (log 9, DEDUCED); that it has this effect in the phases other than FETCH too is the model's choice
(log 23, DESIGN CHOICE). -/
def Obligations.EndStartsGap : Prop :=
  ∀ s : State,
    exec .endSeq s = .next { s with
      log := s.log ++ [entry s.clock (.fetch .endSeq) s.line], gap := some 0#8, phase := .resetGap }

/-- The FETCH step of a running write (R59, R61): the block holds until the item source answers; an
answering source gives its next element, which it passes, and END when nothing is left; a source that never
ends gives another color instead (R92). -/
def Obligations.FetchStepTakesNextElement : Prop :=
  ∀ s u : State, s.tickEdges = u → u.phase = .fetch → u.hostEager = false →
    (u.itemReadyNow = false → step s = .next { u with items := u.items.pop })
    ∧ (u.itemReadyNow = true → ∀ (w : ElementWord) (ws : List ElementWord), u.rest.words = w :: ws →
        w[24] = false →
        step s = .next { u with
          items := u.items.pop
          rest := { u.rest with words := ws }
          log := u.log ++ [entry u.clock
            (.fetch (.color (w.extractLsb' 16 8) (w.extractLsb' 8 8) (w.extractLsb' 0 8))) u.line]
          r := some (w.extractLsb' 16 8), g := some (w.extractLsb' 8 8), b := some (w.extractLsb' 0 8)
          phase := .alignTick })
    ∧ (u.itemReadyNow = true → ∀ (w : ElementWord) (ws : List ElementWord), u.rest.words = w :: ws →
        w[24] = true →
        step s = .next { u with
          items := u.items.pop
          rest := { u.rest with words := ws }
          log := u.log ++ [entry u.clock (.fetch .endSeq) u.line]
          gap := some 0#8
          phase := .resetGap })
    ∧ (u.itemReadyNow = true → u.rest.words = [] → u.rest.endless = false →
        step s = .next { u with
          items := u.items.pop
          log := u.log ++ [entry u.clock (.fetch .endSeq) u.line]
          gap := some 0#8
          phase := .resetGap })
    ∧ (u.itemReadyNow = true → u.rest.words = [] → u.rest.endless = true → ∃ r g b : Byte,
        step s = .next { u with
          items := u.items.pop
          colors := u.colors.pop
          log := u.log ++ [entry u.clock (.fetch (.color r g b)) u.line]
          r := some r, g := some g, b := some b
          phase := .alignTick })

/-! ### Host commands -/

/-- NEW of a block not yet built (R76): it takes ownership and records NEW; its next step, one event a step
(R88), commands the line low, discards the answer, and the block is IDLE. Tick edges may fall between the two
events (R31). That these are two steps, with the phase still UNINIT between them, is the model's reading
(log 24, DEDUCED), and an eager host command may be served between them (log 10). -/
def Obligations.NewConstructsBlock : Prop :=
  (∀ s : State, s.phase = .uninit → s.owned = false →
    exec .new s = .next { s with owned := true, log := s.log ++ [entry s.clock .new s.line] })
  ∧ ∀ s u : State, s.tickEdges = u → u.phase = .uninit → u.owned = true → u.hostEager = false →
    step s = .next { u with
      pins := u.pins.pop
      line := levelAfter .low u.pinNow
      log := u.log ++ [entry u.clock (.pin .low (answerOf u.pinNow)) (levelAfter .low u.pinNow)]
      phase := .idle }

/-- NEW in any other phase, or a second NEW before the construction is complete, is refused: no step, no event,
a mark (R77). The form of the refusal is the model's (log 6, DEDUCED), and so is the case inside NEW (log 24). -/
def Obligations.NewRefusedOutsideUninit : Prop :=
  ∀ s : State, s.phase ≠ .uninit ∨ s.owned = true →
    exec .new s = .next { s with marks := s.marks ++ [.refusedNew] }

/-- WRITE in IDLE (R78): the item source holds the host's sequence, CMD(WRITE) is recorded, and the next
step fetches the first element. -/
def Obligations.WriteStartsFrame : Prop :=
  ∀ s : State, s.phase = .idle →
    exec .write s = .next { s with
      rest := s.offer, log := s.log ++ [entry s.clock .cmdWrite s.line], phase := .fetch }

/-- WRITE in any other phase is refused: no step, no event, a mark; a running write is not affected (R79,
R91). That the refusal is a next state with a mark is the model's form of it (log 6, DEDUCED). -/
def Obligations.WriteRefusedOutsideIdle : Prop :=
  ∀ s : State, s.phase ≠ .idle → exec .write s = .next { s with marks := s.marks ++ [.refusedWrite] }

/-- NOP, format H code 00, changes nothing, in every phase (R80). -/
def Obligations.NopChangesNothing : Prop :=
  decode (.h 0b00#2) = .ok .nop ∧ ∀ s : State, exec .nop s = .next s

/-- Host code 11, whenever the host port is served, takes no step of the block: the code leaves the port and a
refusal mark is added (R81, R91; the form of the refusal is log 6, DEDUCED, and when the port is served log 10).
That the mark then stays is `StepKeepsMarks`. -/
def Obligations.HostCode11Refused : Prop :=
  ∀ (s u : State) (seq : Stream) (eager : Bool) (more : List HostAct), s.tickEdges = u →
    u.host = .cmd 0b11#2 seq eager :: more → u.discarded = false →
    ((u.busy = false ∧ (u.unbuilt = true → u.listing = [])) ∨ (u.busy = true ∧ eager = true)) →
      step s = .next { u with host := more, offer := seq, marks := u.marks ++ [.refusedHostCode] }

/-- No step drops a refusal mark: a step leaves the marks as they are or adds one at the end (R77, R81, R91). -/
def Obligations.StepKeepsMarks : Prop :=
  ∀ s t : State, step s = .next t → t.marks = s.marks ∨ ∃ m : Mark, t.marks = s.marks ++ [m]

/-- Discarding the block is no action: no event, the line keeps its level, and the block owns nothing more (R83).
That a discarded block then serves no command is the model's reading (log 13, DEDUCED), and that the discard
stands at the host port is the model's choice (log 10, DESIGN CHOICE). -/
def Obligations.DiscardIsNoAction : Prop :=
  ∀ (s u : State) (more : List HostAct), s.tickEdges = u → u.phase = .idle →
    (u.host = .discard :: more → step s = .next { u with host := more, owned := false })
    ∧ ∀ (c : Code2) (seq : Stream) (eager : Bool), u.owned = false → u.host = .cmd c seq eager :: more →
        step s = .next u

/-! ### Steps -/

/-- A step runs the decoded operation: when the position gives the code `c` and `c` decodes to `i`, the step
is `exec i` in that state, followed by the position's update for where `c` came from; a fault of `exec` is
the step's fault, and `exec` refuses nothing. -/
def Obligations.StepRunsDecodedOperation : Prop :=
  ∀ (s u : State) (o : Origin) (c : Code) (i : Instr), s.tickEdges.fetch = .op o c u → decode c = .ok i →
    (∀ t, exec i u = .next t → step s = t.advance o i)
    ∧ (∀ f, exec i u = .fault f → step s = .fault f)
    ∧ (∀ q, exec i u ≠ .refused q)

/-- What the position gives (R13, R36, R51, R61 to R65, R76): the SET_LOW of NEW, the alignment and gap waits
as WAIT_TICK, the symbol with code `{PROFILE, S.data[7]}`, and the host port while no command is in progress.
While one is, an eagerly presented command is served first: a NOP changes nothing, a WRITE or NEW is refused
(R77, R79, R80). The listing of a block not yet built, and when the port is served, are the model's choices
(log 8, log 10, DESIGN CHOICE). That UNINIT with ownership is the position of NEW's SET_LOW, and that NEW and
WRITE are refused there, is the model's reading (log 24, DEDUCED), and so is a refusal as a next state with a mark
(log 6, DEDUCED). -/
def Obligations.PositionNamesOperation : Prop :=
  ∀ u : State,
    (u.busy = false → (u.unbuilt = true → u.listing = []) → u.discarded = false →
      ∀ (c : Code2) (seq : Stream) (eager : Bool) (more : List HostAct), u.host = .cmd c seq eager :: more →
        u.fetch = .op .host (.h c) { u with host := more, offer := seq })
    ∧ (u.unbuilt = true → ∀ (c : Code2) (cs : List Code2), u.listing = c :: cs →
        u.fetch = .op .listing (.u c) { u with listing := cs })
    ∧ (u.busy = false → (u.unbuilt = true → u.listing = []) → u.host = [] → u.fetch = .hold u)
    ∧ (u.busy = true → ∀ (c : Code2) (seq : Stream) (more : List HostAct), u.host = .cmd c seq true :: more →
        u.fetch = .op .host (.h c) { u with host := more, offer := seq }
        ∧ ∀ s : State, s.tickEdges = u →
          (c = 0b00#2 → step s = .next { u with host := more, offer := seq })
          ∧ (c = 0b01#2 → step s = .next { u with
              host := more, offer := seq, marks := u.marks ++ [.refusedWrite] })
          ∧ (c = 0b10#2 → step s = .next { u with
              host := more, offer := seq, marks := u.marks ++ [.refusedNew] }))
    ∧ (u.hostEager = false → u.phase = .uninit → u.owned = true → u.fetch = .op .construct (.u 0b10#2) u)
    ∧ (u.hostEager = false → u.phase = .alignTick → u.fetch = .op .align (.u 0b00#2) u)
    ∧ (u.hostEager = false → u.phase = .encodeByte → ∀ d : Byte, u.data = some d →
        u.fetch = .op .symbol (.b (symbolCode u.cfg.profile d[7])) u)
    ∧ (u.hostEager = false → u.phase = .resetGap → ∀ n : BitVec 8, u.gap = some n → n.toNat < 160 →
        u.fetch = .op .gap (.u 0b00#2) u)
    ∧ (u.hostEager = false → u.phase = .resetGap → u.gap = some 160#8 → u.fetch = .finish u)

/-- A code placed for the next step is the one that step performs, whatever the state (log 16). -/
def Obligations.PlacedCodeIsFetched : Prop :=
  ∀ (s : State) (c : Code), ∃ (o : Origin) (u : State), (s.place c).tickEdges.fetch = .op o c u

/-- The ALIGN_TICK step (R62): one wait; when it has ended, the green byte is loaded and the first symbol is
next. -/
def Obligations.AlignStepLoadsGreen : Prop :=
  ∀ (s u : State) (v : Byte), s.tickEdges = u → u.phase = .alignTick → u.hostEager = false → u.g = some v →
    (u.waitEnds = false → step s = .next u.waitTick)
    ∧ (u.waitEnds = true → step s = .next { u.waitTick with
        ch := some 0#2, data := some v, bit := some 0#3, step := some 0#3, phase := .encodeByte })

/-- The RESET_GAP step (R64): one wait, no pin command; when it has ended, the gap counter goes up by one. -/
def Obligations.GapStepCountsWaits : Prop :=
  ∀ (s u : State) (n : BitVec 8), s.tickEdges = u → u.phase = .resetGap → u.hostEager = false →
    u.gap = some n → n.toNat < 160 →
    (u.waitEnds = false → step s = .next u.waitTick)
    ∧ (u.waitEnds = true → step s = .next { u.waitTick with gap := some (n + 1#8) })

/-- The completion step (R65): DONE(OK) is recorded and the block is IDLE. -/
def Obligations.CompletionReportsSuccess : Prop :=
  ∀ s u : State, s.tickEdges = u → u.phase = .resetGap → u.hostEager = false → u.gap = some 160#8 →
    step s = .next { u with log := u.log ++ [entry u.clock (.done .ok) u.line], phase := .idle }

/-- A block with no command holds. An IDLE block performs no event of its own, whatever is presented to it: the
line and the ports' draws keep still, its fields survive, and the trace gains nothing but CMD(WRITE) where a
WRITE is accepted (R98). -/
def Obligations.IdleBlockHolds : Prop :=
  (∀ s : State, s.busy = false → (s.unbuilt = true → s.listing = []) → s.host = [] → step s = .next s.tickEdges)
  ∧ ∀ s t : State, s.phase = .idle → step s = .next t →
      ((t.phase = .idle ∧ t.log = s.log)
        ∨ (t.phase = .fetch ∧ t.log = s.log ++ [entry t.clock .cmdWrite s.line]))
      ∧ t.line = s.line ∧ t.pins = s.pins ∧ t.polls = s.polls ∧ t.items = s.items
      ∧ t.r = s.r ∧ t.g = s.g ∧ t.b = s.b ∧ t.ch = s.ch ∧ t.data = s.data ∧ t.bit = s.bit ∧ t.step = s.step
      ∧ t.gap = s.gap

/-- A wait whose tick source does not advance and whose poll does not fail is stuck: the step leaves every
field of the block's state, the line and the trace as they are (R48, R92). -/
def Obligations.WaitWithoutTickIsStuck : Prop :=
  ∀ s : State, s.Inv → s.phase.quiet = false → s.hostEager = false → s.waitDue = true →
    s.edgesNow = 0 → s.pending = false → s.pollFailsNow = false →
      step s = .next { s with edges := s.edges.pop, polls := s.polls.pop, waiting := true }

/-- A listing, which only a block not yet built performs: the micro-operation at its head is performed as
`exec` says; a wait in progress stays at the head; the reserved code is the fault RESERVED_MICROOP (R40, R42,
R44; the listing itself is the model's input, log 8). -/
def Obligations.ListingPerformsLeftToRight : Prop :=
  ∀ (s u : State) (c : Code2) (cs : List Code2), s.tickEdges = u → u.unbuilt = true →
    u.listing = c :: cs →
    (c = 0b11#2 → step s = .fault .reservedMicroop)
    ∧ (c ≠ 0b11#2 → ¬ holdsAfter c u →
        step s = .next { afterMicroOp c u with listing := cs })
    ∧ (holdsAfter c u → step s = .next (afterMicroOp c u))

/-! ### Reset and construction -/

/-- Before NEW (R24): phase UNINIT and no field of `S` written; the block owns nothing and has recorded
nothing. The line and `tick.pending` are any level (free values, log 4). -/
def Obligations.ResetIsUnconstructed : Prop :=
  State.reset.phase = .uninit ∧ State.reset.r = none ∧ State.reset.g = none ∧ State.reset.b = none
    ∧ State.reset.ch = none ∧ State.reset.data = none ∧ State.reset.bit = none ∧ State.reset.step = none
    ∧ State.reset.gap = none ∧ State.reset.owned = false ∧ State.reset.log = []
    ∧ State.reset.cfg.profile = .normal ∧ State.reset.cfg.tickHz = 3000000

/-- Every step keeps the invariant of the step table, in every state: written fields in range, a wait in
progress at a waiting position, ownership during a write, no field written before IDLE, listings without the
reserved code. -/
def Obligations.StepKeepsInvariant : Prop :=
  ∀ s t : State, s.Inv → step s = .next t → t.Inv

/-- No state that meets the invariant stops: the step has a next state, so none of the model's faults and
refusals is reached (R85, R91). -/
def Obligations.StepNeverStops : Prop := ∀ s : State, s.Inv → ∃ t, step s = .next t

/-- No step changes the configuration (R2, R16). -/
def Obligations.StepKeepsConfiguration : Prop := ∀ s t : State, step s = .next t → t.cfg = s.cfg

/-- NEW is recorded exactly once, when the block is built, and the block is never unbuilt again (R77). -/
def Obligations.ConstructedAtMostOnce : Prop := ∀ s t : State, s.NewOnce → step s = .next t → t.NewOnce

/-- Every accepted write but a running one has its DONE: a write ends only with DONE (R65, R74). -/
def Obligations.EveryWriteEndsWithDone : Prop :=
  ∀ s t : State, s.WritesBalance → step s = .next t → t.WritesBalance

/-- No write reports WRITE_FAILED (R82, R85). -/
def Obligations.NoWriteReportsFailure : Prop := ∀ s t : State, s.NoFailure → step s = .next t → t.NoFailure

/-- Between colors and after every write the transient fields stand as R24 says: channel 2, data 0, bit and
step 0, gap 160, or never written; inside a byte the bits shifted in are zero (R24, R58). -/
def Obligations.FieldsSpentAfterColor : Prop :=
  ∀ s t : State, s.Inv → s.Spent → step s = .next t → t.Spent

/-- The invariants hold at reset. -/
def Obligations.ResetMeetsInvariants : Prop :=
  State.reset.Inv ∧ State.reset.NewOnce ∧ State.reset.WritesBalance ∧ State.reset.NoFailure ∧ State.reset.Spent

/-! ### The trace, the line and whole writes -/

/-- The trace only grows, by at most one event a step, stamped with the clock and the line after it (R22, R31,
R88; the stamps are log 14). -/
def Obligations.StepAddsAtMostOneEvent : Prop :=
  ∀ s t : State, step s = .next t →
    t.log = s.log ∨ ∃ ev : Event, t.log = s.log ++ [entry t.clock ev t.line]

/-- Only a pin command changes the line: a step that leaves the line at another level has recorded a PIN as
its last event, and the line is at the commanded level if the answer was OK (R19, R47). -/
def Obligations.OnlyPinCommandsMoveLine : Prop :=
  ∀ s t : State, step s = .next t → t.line ≠ s.line →
    ∃ (es : List Entry) (level : Level) (a : PinAnswer),
      t.log = s.log ++ es ++ [entry t.clock (.pin level a) t.line] ∧ (a = .ok → t.line = level)

/-- During the reset gap the line keeps its level (R64, R72). -/
def Obligations.GapKeepsLine : Prop :=
  ∀ s t : State, s.phase = .resetGap → step s = .next t → t.line = s.line ∧ t.pins = s.pins

/-- A running write whose item source ends (`endless = false`; an endless one has no END ahead, R92) records
exactly the events of its plan, in order, whatever the pins and polls answer and whenever the items come: each
step moves events from what is left of the write to the trace. With `WriteBeginsWithFrame` this says that
the step table R61 to R65 performs the procedure R60. -/
def Obligations.RunningWriteFollowsPlan : Prop :=
  ∀ s t : State, s.Inv → s.phase.quiet = false → s.rest.endless = false → step s = .next t →
    t.shapes ++ t.plan = s.shapes ++ s.plan

/-- An accepted write has the whole frame of its sequence ahead: for each color its FETCH, alignment wait and
24 symbols, then FETCH(END), 160 waits and DONE(OK) (R60, R73, R78). The sequence is a finite one; an endless
item source has no END ahead (R92). -/
def Obligations.WriteBeginsWithFrame : Prop :=
  ∀ s t : State, s.phase = .idle → exec .write s = .next t →
    t.phase = .fetch ∧ t.rest = s.offer
    ∧ (s.offer.endless = false → t.plan = frameEvents s.cfg.profile (streamColors s.offer.words))

/-- A frame of N colors has `N * (1 + 24 * B) + 160` waits, `48 * N` pin commands, `N + 1` fetches and one
DONE (R70). -/
def Obligations.FrameEventCounts : Prop :=
  ∀ (p : Profile) (colors : List (Byte × Byte × Byte)),
    countEvents isWait (frameEvents p colors) = colors.length * (1 + 24 * Config.waitsPerBit p) + 160
    ∧ countEvents isPin (frameEvents p colors) = 48 * colors.length
    ∧ countEvents isFetch (frameEvents p colors) = colors.length + 1
    ∧ countEvents isDone (frameEvents p colors) = 1

/-- The pin commands of a frame alternate, starting with HIGH (R70). -/
def Obligations.FramePinsAlternate : Prop :=
  ∀ (p : Profile) (colors : List (Byte × Byte × Byte)),
    (frameEvents p colors).filter isPin
      = (List.replicate (24 * colors.length) [Event.pin .high .ok, Event.pin .low .ok]).flatten

/-- A frame of no color has one FETCH, which answers END, 160 waits and DONE(OK), and no pin command (R71). -/
def Obligations.EmptyFrameIsGapOnly : Prop :=
  ∀ p : Profile,
    frameEvents p [] = .fetch .endSeq :: (List.replicate 160 (Event.wait .tick) ++ [.done .ok])

/-- A running write whose tick source ticks and whose item source answers and ends (`endless = false`, R92), with
nothing at the host port (`host = []`; a command there would take steps of its own, log 10), completes, within two
steps per event left, under either TICK_LATCH, whatever the pins answer; its trace is then its plan (R74, R92). The number
of steps is about the model's steps: one poll a step (log 1), and no READY at a wait's first poll under
TICK_LATCH = 0 (log 20). -/
def Obligations.ServedWriteCompletes : Prop :=
  ∀ s : State, s.Inv → s.phase.quiet = false → s.rest.endless = false → s.host = [] →
    s.Served (2 * s.plan.length) →
      ∃ (n : Nat) (t : State), n ≤ 2 * s.plan.length ∧ core.run n s = .next t
        ∧ t.phase = .idle ∧ t.shapes = s.shapes ++ s.plan

/-- The block cannot learn what its pin commands answered or where the line is: two states that differ only
there stay so, and stop alike (R47, R86). -/
def Obligations.PinFailuresChangeNothingElse : Prop :=
  ∀ s s' : State, s.pinBlind = s'.pinBlind →
    (∀ t, step s = .next t → ∃ t', step s' = .next t' ∧ t'.pinBlind = t.pinBlind)
    ∧ (∀ f, step s = .fault f → step s' = .fault f)

/-- No operation reads the tick rate (R3, R102), nor a latency (R106, D14): with others the same step is taken.
That the latencies are parameters that no step reads is the model's choice (log 19, DESIGN CHOICE). -/
def Obligations.TimingParametersUnread : Prop :=
  ∀ (s : State) (hz a b c d : Nat),
    step (s.withTiming hz a b c d) = mapOutcome (fun t => t.withTiming hz a b c d) (step s)
end

