-- ==== Sys2Proof/Laws/State.lean ====
section
/-! SUPPORT. What each update of the state leaves and what it writes: one lemma per field, true by
unfolding the update. -/

namespace Sys2Proof.Machine

variable (s : State) (e : Event) (m : Mark) (l : Level) (r' g' b' : Byte) (how : WaitEnd)

@[simp] theorem State.record_cfg : (s.record e).cfg = s.cfg := rfl
@[simp] theorem State.record_phase : (s.record e).phase = s.phase := rfl
@[simp] theorem State.record_r : (s.record e).r = s.r := rfl
@[simp] theorem State.record_g : (s.record e).g = s.g := rfl
@[simp] theorem State.record_b : (s.record e).b = s.b := rfl
@[simp] theorem State.record_ch : (s.record e).ch = s.ch := rfl
@[simp] theorem State.record_data : (s.record e).data = s.data := rfl
@[simp] theorem State.record_bit : (s.record e).bit = s.bit := rfl
@[simp] theorem State.record_step : (s.record e).step = s.step := rfl
@[simp] theorem State.record_gap : (s.record e).gap = s.gap := rfl
@[simp] theorem State.record_line : (s.record e).line = s.line := rfl
@[simp] theorem State.record_pending : (s.record e).pending = s.pending := rfl
@[simp] theorem State.record_waiting : (s.record e).waiting = s.waiting := rfl
@[simp] theorem State.record_rest : (s.record e).rest = s.rest := rfl
@[simp] theorem State.record_offer : (s.record e).offer = s.offer := rfl
@[simp] theorem State.record_host : (s.record e).host = s.host := rfl
@[simp] theorem State.record_owned : (s.record e).owned = s.owned := rfl
@[simp] theorem State.record_log : (s.record e).log = s.log ++ [{ ticks := s.clock, event := e, line := s.line }] := rfl
@[simp] theorem State.record_marks : (s.record e).marks = s.marks := rfl
@[simp] theorem State.record_listing : (s.record e).listing = s.listing := rfl
@[simp] theorem State.record_clock : (s.record e).clock = s.clock := rfl
@[simp] theorem State.record_edges : (s.record e).edges = s.edges := rfl
@[simp] theorem State.record_polls : (s.record e).polls = s.polls := rfl
@[simp] theorem State.record_pins : (s.record e).pins = s.pins := rfl
@[simp] theorem State.record_items : (s.record e).items = s.items := rfl
@[simp] theorem State.record_colors : (s.record e).colors = s.colors := rfl

@[simp] theorem State.refuse_cfg : (s.refuse m).cfg = s.cfg := rfl
@[simp] theorem State.refuse_phase : (s.refuse m).phase = s.phase := rfl
@[simp] theorem State.refuse_r : (s.refuse m).r = s.r := rfl
@[simp] theorem State.refuse_g : (s.refuse m).g = s.g := rfl
@[simp] theorem State.refuse_b : (s.refuse m).b = s.b := rfl
@[simp] theorem State.refuse_ch : (s.refuse m).ch = s.ch := rfl
@[simp] theorem State.refuse_data : (s.refuse m).data = s.data := rfl
@[simp] theorem State.refuse_bit : (s.refuse m).bit = s.bit := rfl
@[simp] theorem State.refuse_step : (s.refuse m).step = s.step := rfl
@[simp] theorem State.refuse_gap : (s.refuse m).gap = s.gap := rfl
@[simp] theorem State.refuse_line : (s.refuse m).line = s.line := rfl
@[simp] theorem State.refuse_pending : (s.refuse m).pending = s.pending := rfl
@[simp] theorem State.refuse_waiting : (s.refuse m).waiting = s.waiting := rfl
@[simp] theorem State.refuse_rest : (s.refuse m).rest = s.rest := rfl
@[simp] theorem State.refuse_offer : (s.refuse m).offer = s.offer := rfl
@[simp] theorem State.refuse_host : (s.refuse m).host = s.host := rfl
@[simp] theorem State.refuse_owned : (s.refuse m).owned = s.owned := rfl
@[simp] theorem State.refuse_log : (s.refuse m).log = s.log := rfl
@[simp] theorem State.refuse_marks : (s.refuse m).marks = s.marks ++ [m] := rfl
@[simp] theorem State.refuse_listing : (s.refuse m).listing = s.listing := rfl
@[simp] theorem State.refuse_clock : (s.refuse m).clock = s.clock := rfl
@[simp] theorem State.refuse_edges : (s.refuse m).edges = s.edges := rfl
@[simp] theorem State.refuse_polls : (s.refuse m).polls = s.polls := rfl
@[simp] theorem State.refuse_pins : (s.refuse m).pins = s.pins := rfl
@[simp] theorem State.refuse_items : (s.refuse m).items = s.items := rfl
@[simp] theorem State.refuse_colors : (s.refuse m).colors = s.colors := rfl

@[simp] theorem State.tickEdges_cfg : (s.tickEdges).cfg = s.cfg := rfl
@[simp] theorem State.tickEdges_phase : (s.tickEdges).phase = s.phase := rfl
@[simp] theorem State.tickEdges_r : (s.tickEdges).r = s.r := rfl
@[simp] theorem State.tickEdges_g : (s.tickEdges).g = s.g := rfl
@[simp] theorem State.tickEdges_b : (s.tickEdges).b = s.b := rfl
@[simp] theorem State.tickEdges_ch : (s.tickEdges).ch = s.ch := rfl
@[simp] theorem State.tickEdges_data : (s.tickEdges).data = s.data := rfl
@[simp] theorem State.tickEdges_bit : (s.tickEdges).bit = s.bit := rfl
@[simp] theorem State.tickEdges_step : (s.tickEdges).step = s.step := rfl
@[simp] theorem State.tickEdges_gap : (s.tickEdges).gap = s.gap := rfl
@[simp] theorem State.tickEdges_line : (s.tickEdges).line = s.line := rfl
@[simp] theorem State.tickEdges_pending : (s.tickEdges).pending = (s.pending || decide (0 < s.edgesNow)) := rfl
@[simp] theorem State.tickEdges_waiting : (s.tickEdges).waiting = s.waiting := rfl
@[simp] theorem State.tickEdges_rest : (s.tickEdges).rest = s.rest := rfl
@[simp] theorem State.tickEdges_offer : (s.tickEdges).offer = s.offer := rfl
@[simp] theorem State.tickEdges_host : (s.tickEdges).host = s.host := rfl
@[simp] theorem State.tickEdges_owned : (s.tickEdges).owned = s.owned := rfl
@[simp] theorem State.tickEdges_log : (s.tickEdges).log = s.log := rfl
@[simp] theorem State.tickEdges_marks : (s.tickEdges).marks = s.marks := rfl
@[simp] theorem State.tickEdges_listing : (s.tickEdges).listing = s.listing := rfl
@[simp] theorem State.tickEdges_clock : (s.tickEdges).clock = s.clock + s.edgesNow := rfl
@[simp] theorem State.tickEdges_edges : (s.tickEdges).edges = s.edges.pop := rfl
@[simp] theorem State.tickEdges_polls : (s.tickEdges).polls = s.polls := rfl
@[simp] theorem State.tickEdges_pins : (s.tickEdges).pins = s.pins := rfl
@[simp] theorem State.tickEdges_items : (s.tickEdges).items = s.items := rfl
@[simp] theorem State.tickEdges_colors : (s.tickEdges).colors = s.colors := rfl

@[simp] theorem State.latchColor_cfg : (s.latchColor r' g' b').cfg = s.cfg := rfl
@[simp] theorem State.latchColor_phase : (s.latchColor r' g' b').phase = s.phase := rfl
@[simp] theorem State.latchColor_r : (s.latchColor r' g' b').r = some r' := rfl
@[simp] theorem State.latchColor_g : (s.latchColor r' g' b').g = some g' := rfl
@[simp] theorem State.latchColor_b : (s.latchColor r' g' b').b = some b' := rfl
@[simp] theorem State.latchColor_ch : (s.latchColor r' g' b').ch = s.ch := rfl
@[simp] theorem State.latchColor_data : (s.latchColor r' g' b').data = s.data := rfl
@[simp] theorem State.latchColor_bit : (s.latchColor r' g' b').bit = s.bit := rfl
@[simp] theorem State.latchColor_step : (s.latchColor r' g' b').step = s.step := rfl
@[simp] theorem State.latchColor_gap : (s.latchColor r' g' b').gap = s.gap := rfl
@[simp] theorem State.latchColor_line : (s.latchColor r' g' b').line = s.line := rfl
@[simp] theorem State.latchColor_pending : (s.latchColor r' g' b').pending = s.pending := rfl
@[simp] theorem State.latchColor_waiting : (s.latchColor r' g' b').waiting = s.waiting := rfl
@[simp] theorem State.latchColor_rest : (s.latchColor r' g' b').rest = s.rest := rfl
@[simp] theorem State.latchColor_offer : (s.latchColor r' g' b').offer = s.offer := rfl
@[simp] theorem State.latchColor_host : (s.latchColor r' g' b').host = s.host := rfl
@[simp] theorem State.latchColor_owned : (s.latchColor r' g' b').owned = s.owned := rfl
@[simp] theorem State.latchColor_log : (s.latchColor r' g' b').log = s.log := rfl
@[simp] theorem State.latchColor_marks : (s.latchColor r' g' b').marks = s.marks := rfl
@[simp] theorem State.latchColor_listing : (s.latchColor r' g' b').listing = s.listing := rfl
@[simp] theorem State.latchColor_clock : (s.latchColor r' g' b').clock = s.clock := rfl
@[simp] theorem State.latchColor_edges : (s.latchColor r' g' b').edges = s.edges := rfl
@[simp] theorem State.latchColor_polls : (s.latchColor r' g' b').polls = s.polls := rfl
@[simp] theorem State.latchColor_pins : (s.latchColor r' g' b').pins = s.pins := rfl
@[simp] theorem State.latchColor_items : (s.latchColor r' g' b').items = s.items := rfl
@[simp] theorem State.latchColor_colors : (s.latchColor r' g' b').colors = s.colors := rfl

@[simp] theorem State.complete_cfg : (s.complete).cfg = s.cfg := rfl
@[simp] theorem State.complete_phase : (s.complete).phase = .idle := rfl
@[simp] theorem State.complete_r : (s.complete).r = s.r := rfl
@[simp] theorem State.complete_g : (s.complete).g = s.g := rfl
@[simp] theorem State.complete_b : (s.complete).b = s.b := rfl
@[simp] theorem State.complete_ch : (s.complete).ch = s.ch := rfl
@[simp] theorem State.complete_data : (s.complete).data = s.data := rfl
@[simp] theorem State.complete_bit : (s.complete).bit = s.bit := rfl
@[simp] theorem State.complete_step : (s.complete).step = s.step := rfl
@[simp] theorem State.complete_gap : (s.complete).gap = s.gap := rfl
@[simp] theorem State.complete_line : (s.complete).line = s.line := rfl
@[simp] theorem State.complete_pending : (s.complete).pending = s.pending := rfl
@[simp] theorem State.complete_waiting : (s.complete).waiting = s.waiting := rfl
@[simp] theorem State.complete_rest : (s.complete).rest = s.rest := rfl
@[simp] theorem State.complete_offer : (s.complete).offer = s.offer := rfl
@[simp] theorem State.complete_host : (s.complete).host = s.host := rfl
@[simp] theorem State.complete_owned : (s.complete).owned = s.owned := rfl
@[simp] theorem State.complete_log : (s.complete).log = s.log ++ [{ ticks := s.clock, event := .done .ok, line := s.line }] := rfl
@[simp] theorem State.complete_marks : (s.complete).marks = s.marks := rfl
@[simp] theorem State.complete_listing : (s.complete).listing = s.listing := rfl
@[simp] theorem State.complete_clock : (s.complete).clock = s.clock := rfl
@[simp] theorem State.complete_edges : (s.complete).edges = s.edges := rfl
@[simp] theorem State.complete_polls : (s.complete).polls = s.polls := rfl
@[simp] theorem State.complete_pins : (s.complete).pins = s.pins := rfl
@[simp] theorem State.complete_items : (s.complete).items = s.items := rfl
@[simp] theorem State.complete_colors : (s.complete).colors = s.colors := rfl

@[simp] theorem State.endWait_cfg : (s.endWait how).cfg = s.cfg := rfl
@[simp] theorem State.endWait_phase : (s.endWait how).phase = s.phase := rfl
@[simp] theorem State.endWait_r : (s.endWait how).r = s.r := rfl
@[simp] theorem State.endWait_g : (s.endWait how).g = s.g := rfl
@[simp] theorem State.endWait_b : (s.endWait how).b = s.b := rfl
@[simp] theorem State.endWait_ch : (s.endWait how).ch = s.ch := rfl
@[simp] theorem State.endWait_data : (s.endWait how).data = s.data := rfl
@[simp] theorem State.endWait_bit : (s.endWait how).bit = s.bit := rfl
@[simp] theorem State.endWait_step : (s.endWait how).step = s.step := rfl
@[simp] theorem State.endWait_gap : (s.endWait how).gap = s.gap := rfl
@[simp] theorem State.endWait_line : (s.endWait how).line = s.line := rfl
@[simp] theorem State.endWait_pending : (s.endWait how).pending = s.pending := rfl
@[simp] theorem State.endWait_waiting : (s.endWait how).waiting = false := rfl
@[simp] theorem State.endWait_rest : (s.endWait how).rest = s.rest := rfl
@[simp] theorem State.endWait_offer : (s.endWait how).offer = s.offer := rfl
@[simp] theorem State.endWait_host : (s.endWait how).host = s.host := rfl
@[simp] theorem State.endWait_owned : (s.endWait how).owned = s.owned := rfl
@[simp] theorem State.endWait_log : (s.endWait how).log = s.log ++ [{ ticks := s.clock, event := .wait how, line := s.line }] := rfl
@[simp] theorem State.endWait_marks : (s.endWait how).marks = s.marks := rfl
@[simp] theorem State.endWait_listing : (s.endWait how).listing = s.listing := rfl
@[simp] theorem State.endWait_clock : (s.endWait how).clock = s.clock := rfl
@[simp] theorem State.endWait_edges : (s.endWait how).edges = s.edges := rfl
@[simp] theorem State.endWait_polls : (s.endWait how).polls = s.polls := rfl
@[simp] theorem State.endWait_pins : (s.endWait how).pins = s.pins := rfl
@[simp] theorem State.endWait_items : (s.endWait how).items = s.items := rfl
@[simp] theorem State.endWait_colors : (s.endWait how).colors = s.colors := rfl

@[simp] theorem State.pinSet_cfg : (s.pinSet l).cfg = s.cfg := rfl
@[simp] theorem State.pinSet_phase : (s.pinSet l).phase = s.phase := rfl
@[simp] theorem State.pinSet_r : (s.pinSet l).r = s.r := rfl
@[simp] theorem State.pinSet_g : (s.pinSet l).g = s.g := rfl
@[simp] theorem State.pinSet_b : (s.pinSet l).b = s.b := rfl
@[simp] theorem State.pinSet_ch : (s.pinSet l).ch = s.ch := rfl
@[simp] theorem State.pinSet_data : (s.pinSet l).data = s.data := rfl
@[simp] theorem State.pinSet_bit : (s.pinSet l).bit = s.bit := rfl
@[simp] theorem State.pinSet_step : (s.pinSet l).step = s.step := rfl
@[simp] theorem State.pinSet_gap : (s.pinSet l).gap = s.gap := rfl
@[simp] theorem State.pinSet_line : (s.pinSet l).line = levelAfter l s.pinNow := rfl
@[simp] theorem State.pinSet_pending : (s.pinSet l).pending = s.pending := rfl
@[simp] theorem State.pinSet_waiting : (s.pinSet l).waiting = s.waiting := rfl
@[simp] theorem State.pinSet_rest : (s.pinSet l).rest = s.rest := rfl
@[simp] theorem State.pinSet_offer : (s.pinSet l).offer = s.offer := rfl
@[simp] theorem State.pinSet_host : (s.pinSet l).host = s.host := rfl
@[simp] theorem State.pinSet_owned : (s.pinSet l).owned = s.owned := rfl
@[simp] theorem State.pinSet_log : (s.pinSet l).log = s.log ++ [{ ticks := s.clock, event := .pin l (answerOf s.pinNow), line := levelAfter l s.pinNow }] := rfl
@[simp] theorem State.pinSet_marks : (s.pinSet l).marks = s.marks := rfl
@[simp] theorem State.pinSet_listing : (s.pinSet l).listing = s.listing := rfl
@[simp] theorem State.pinSet_clock : (s.pinSet l).clock = s.clock := rfl
@[simp] theorem State.pinSet_edges : (s.pinSet l).edges = s.edges := rfl
@[simp] theorem State.pinSet_polls : (s.pinSet l).polls = s.polls := rfl
@[simp] theorem State.pinSet_pins : (s.pinSet l).pins = s.pins.pop := rfl
@[simp] theorem State.pinSet_items : (s.pinSet l).items = s.items := rfl
@[simp] theorem State.pinSet_colors : (s.pinSet l).colors = s.colors := rfl

/-- WAIT_TICK as one update of the state: the poll is used up, the wait ends exactly when `waitEnds`, and
only an ERROR leaves a pending tick behind (R46, R48). -/
theorem State.waitTick_eq :
    s.waitTick = { s with
      polls := s.polls.pop
      waiting := !s.waitEnds
      pending := s.pollFailsNow && s.tickCounts
      log := if s.waitEnds then
          s.log ++ [{ ticks := s.clock, event := .wait (if s.pollFailsNow then .error else .tick), line := s.line }]
        else s.log } := by
  have hpoll : s.beginWait.pollFailsNow = s.pollFailsNow := rfl
  unfold State.waitTick State.tickPoll State.waitEnds
  rw [hpoll]
  cases hf : s.pollFailsNow
  · cases ht : s.tickCounts
    · simp [State.beginWait, ht]
    · simp [State.beginWait, State.endWait, State.record, ht]
  · simp [State.beginWait, State.endWait, State.record]

@[simp] theorem State.waitTick_cfg : s.waitTick.cfg = s.cfg := by rw [State.waitTick_eq]
@[simp] theorem State.waitTick_phase : s.waitTick.phase = s.phase := by rw [State.waitTick_eq]
@[simp] theorem State.waitTick_r : s.waitTick.r = s.r := by rw [State.waitTick_eq]
@[simp] theorem State.waitTick_g : s.waitTick.g = s.g := by rw [State.waitTick_eq]
@[simp] theorem State.waitTick_b : s.waitTick.b = s.b := by rw [State.waitTick_eq]
@[simp] theorem State.waitTick_ch : s.waitTick.ch = s.ch := by rw [State.waitTick_eq]
@[simp] theorem State.waitTick_data : s.waitTick.data = s.data := by rw [State.waitTick_eq]
@[simp] theorem State.waitTick_bit : s.waitTick.bit = s.bit := by rw [State.waitTick_eq]
@[simp] theorem State.waitTick_step : s.waitTick.step = s.step := by rw [State.waitTick_eq]
@[simp] theorem State.waitTick_gap : s.waitTick.gap = s.gap := by rw [State.waitTick_eq]
@[simp] theorem State.waitTick_line : s.waitTick.line = s.line := by rw [State.waitTick_eq]
@[simp] theorem State.waitTick_pending : s.waitTick.pending = (s.pollFailsNow && s.tickCounts) := by rw [State.waitTick_eq]
@[simp] theorem State.waitTick_waiting : s.waitTick.waiting = (!s.waitEnds) := by rw [State.waitTick_eq]
@[simp] theorem State.waitTick_rest : s.waitTick.rest = s.rest := by rw [State.waitTick_eq]
@[simp] theorem State.waitTick_offer : s.waitTick.offer = s.offer := by rw [State.waitTick_eq]
@[simp] theorem State.waitTick_host : s.waitTick.host = s.host := by rw [State.waitTick_eq]
@[simp] theorem State.waitTick_owned : s.waitTick.owned = s.owned := by rw [State.waitTick_eq]
@[simp] theorem State.waitTick_marks : s.waitTick.marks = s.marks := by rw [State.waitTick_eq]
@[simp] theorem State.waitTick_listing : s.waitTick.listing = s.listing := by rw [State.waitTick_eq]
@[simp] theorem State.waitTick_clock : s.waitTick.clock = s.clock := by rw [State.waitTick_eq]
@[simp] theorem State.waitTick_edges : s.waitTick.edges = s.edges := by rw [State.waitTick_eq]
@[simp] theorem State.waitTick_polls : s.waitTick.polls = s.polls.pop := by rw [State.waitTick_eq]
@[simp] theorem State.waitTick_pins : s.waitTick.pins = s.pins := by rw [State.waitTick_eq]
@[simp] theorem State.waitTick_items : s.waitTick.items = s.items := by rw [State.waitTick_eq]
@[simp] theorem State.waitTick_colors : s.waitTick.colors = s.colors := by rw [State.waitTick_eq]

end Sys2Proof.Machine
end

