-- ==== Sys2Proof/Laws/Ops.lean ====
section
/-! SUPPORT. What each shared operation can do, said once: the micro-operations by their digit, the patterns
of the four bit symbols, the ENCODE_BYTE step, and the operation each code runs. -/

namespace Sys2Proof.Machine

/-- A micro-operation of a pattern always has a next state. -/
theorem State.microOp_of_ne (s : State) {c : Code2} (h : c ≠ 3#2) :
    s.microOp c = .next (afterMicroOp c s) := by
  have hc : c = 0#2 ∨ c = 1#2 ∨ c = 2#2 ∨ c = 3#2 := by revert c; decide
  rcases hc with rfl | rfl | rfl | rfl
  · rfl
  · rfl
  · rfl
  · exact absurd rfl h

/-- The reserved code is the model fault RESERVED_MICROOP (R42). -/
theorem State.microOp_reserved (s : State) : s.microOp 3#2 = .fault .reservedMicroop := rfl

theorem State.held_iff (s : State) (c : Code2) :
    (afterMicroOp c s).held c = true ↔ holdsAfter c s := by
  simp [State.held, holdsAfter]

/-- No pattern holds the reserved code (R42). -/
theorem pattern_codes (p : Profile) (d : Bool) : ∀ c ∈ pattern p d, c ≠ 3#2 := by
  cases p <;> cases d <;> decide

theorem pattern_length (p : Profile) (d : Bool) : (pattern p d).length = Config.symbolLength p := by
  cases p <;> cases d <;> rfl

/-- The meaning of the symbol a block selects is the ENCODE_BYTE step with its pattern (R51, R63). -/
theorem exec_decodeB (p : Profile) (d : Bool) (s : State) :
    exec (decodeB (symbolCode p d)) s = s.encodeStep (pattern p d) := by
  cases p <;> cases d <;> rfl

/-- The fields a micro-operation can write: the line and its draws, the tick source and its polls, the wait
in progress, and the trace. -/
theorem afterMicroOp_frame (c : Code2) (s : State) :
    afterMicroOp c s = { s with
      line := (afterMicroOp c s).line
      pending := (afterMicroOp c s).pending
      waiting := (afterMicroOp c s).waiting
      polls := (afterMicroOp c s).polls
      pins := (afterMicroOp c s).pins
      log := (afterMicroOp c s).log } := by
  unfold afterMicroOp
  split
  · rw [State.waitTick_eq]
  · split <;> rfl

@[simp] theorem afterMicroOp_cfg (c : Code2) (s : State) : (afterMicroOp c s).cfg = s.cfg := by
  rw [afterMicroOp_frame]
@[simp] theorem afterMicroOp_phase (c : Code2) (s : State) : (afterMicroOp c s).phase = s.phase := by
  rw [afterMicroOp_frame]
@[simp] theorem afterMicroOp_r (c : Code2) (s : State) : (afterMicroOp c s).r = s.r := by
  rw [afterMicroOp_frame]
@[simp] theorem afterMicroOp_g (c : Code2) (s : State) : (afterMicroOp c s).g = s.g := by
  rw [afterMicroOp_frame]
@[simp] theorem afterMicroOp_b (c : Code2) (s : State) : (afterMicroOp c s).b = s.b := by
  rw [afterMicroOp_frame]
@[simp] theorem afterMicroOp_ch (c : Code2) (s : State) : (afterMicroOp c s).ch = s.ch := by
  rw [afterMicroOp_frame]
@[simp] theorem afterMicroOp_data (c : Code2) (s : State) : (afterMicroOp c s).data = s.data := by
  rw [afterMicroOp_frame]
@[simp] theorem afterMicroOp_bit (c : Code2) (s : State) : (afterMicroOp c s).bit = s.bit := by
  rw [afterMicroOp_frame]
@[simp] theorem afterMicroOp_step (c : Code2) (s : State) : (afterMicroOp c s).step = s.step := by
  rw [afterMicroOp_frame]
@[simp] theorem afterMicroOp_gap (c : Code2) (s : State) : (afterMicroOp c s).gap = s.gap := by
  rw [afterMicroOp_frame]
@[simp] theorem afterMicroOp_rest (c : Code2) (s : State) : (afterMicroOp c s).rest = s.rest := by
  rw [afterMicroOp_frame]
@[simp] theorem afterMicroOp_offer (c : Code2) (s : State) : (afterMicroOp c s).offer = s.offer := by
  rw [afterMicroOp_frame]
@[simp] theorem afterMicroOp_host (c : Code2) (s : State) : (afterMicroOp c s).host = s.host := by
  rw [afterMicroOp_frame]
@[simp] theorem afterMicroOp_owned (c : Code2) (s : State) : (afterMicroOp c s).owned = s.owned := by
  rw [afterMicroOp_frame]
@[simp] theorem afterMicroOp_marks (c : Code2) (s : State) : (afterMicroOp c s).marks = s.marks := by
  rw [afterMicroOp_frame]
@[simp] theorem afterMicroOp_listing (c : Code2) (s : State) : (afterMicroOp c s).listing = s.listing := by
  rw [afterMicroOp_frame]
@[simp] theorem afterMicroOp_clock (c : Code2) (s : State) : (afterMicroOp c s).clock = s.clock := by
  rw [afterMicroOp_frame]
@[simp] theorem afterMicroOp_edges (c : Code2) (s : State) : (afterMicroOp c s).edges = s.edges := by
  rw [afterMicroOp_frame]
@[simp] theorem afterMicroOp_items (c : Code2) (s : State) : (afterMicroOp c s).items = s.items := by
  rw [afterMicroOp_frame]
@[simp] theorem afterMicroOp_colors (c : Code2) (s : State) : (afterMicroOp c s).colors = s.colors := by
  rw [afterMicroOp_frame]

/-- A micro-operation that is no wait leaves a wait in progress as it was. -/
theorem afterMicroOp_waiting_of_ne {c : Code2} (h : c ≠ 0#2) (s : State) :
    (afterMicroOp c s).waiting = s.waiting := by
  unfold afterMicroOp
  rw [if_neg h]
  split <;> rfl

/-- What a micro-operation records: nothing while its wait is in progress, else one event of its shape. -/
theorem afterMicroOp_log {c : Code2} (h : c ≠ 3#2) (s : State) :
    (holdsAfter c s ∧ (afterMicroOp c s).log = s.log)
      ∨ (¬ holdsAfter c s ∧ ∃ e, eventShape e.event = codeEvent c ∧ e.line = (afterMicroOp c s).line
          ∧ (afterMicroOp c s).log = s.log ++ [e]) := by
  have hc : c = 0#2 ∨ c = 1#2 ∨ c = 2#2 ∨ c = 3#2 := by revert c; decide
  rcases hc with rfl | rfl | rfl | rfl
  · have ha : afterMicroOp 0#2 s = s.waitTick := rfl
    unfold holdsAfter
    rw [ha, State.waitTick_eq]
    cases hw : s.waitEnds
    · exact .inl (by simp)
    · exact .inr (by simp; rfl)
  · exact .inr ⟨by simp [holdsAfter], _, rfl, rfl, rfl⟩
  · exact .inr ⟨by simp [holdsAfter], _, rfl, rfl, rfl⟩
  · exact absurd rfl h

/-- The ENCODE_BYTE step at a micro-operation of its pattern (R63): the position holds, or moves inside the
symbol, or the symbol is complete. -/
theorem State.encodeStep_eq (s : State) (p : List Code2) {k : BitVec 3} {c : Code2}
    (hk : s.step = some k) (hc : p[k.toNat]? = some c) (hn : c ≠ 3#2) :
    s.encodeStep p =
      if (afterMicroOp c s).held c then .next (afterMicroOp c s)
      else if k.toNat + 1 < p.length then .next { afterMicroOp c s with step := some (k + 1#3) }
      else (afterMicroOp c s).symbolDone := by
  have hs : ({ afterMicroOp c s with step := some k } : State) = afterMicroOp c s := by
    rw [← hk, ← afterMicroOp_step c s]
  by_cases hm : k.toNat + 1 < p.length
  · cases hh : (afterMicroOp c s).held c
    · simp [State.encodeStep, hk, hc, s.microOp_of_ne hn, moreMicroOps, hm, hh]
    · simp only [State.encodeStep, hk, hc, s.microOp_of_ne hn, moreMicroOps, hm, hh, decide_true, if_true]
      exact congrArg Host.Outcome.next hs
  · simp [State.encodeStep, hk, hc, s.microOp_of_ne hn, moreMicroOps, hm]

end Sys2Proof.Machine
end

