-- ==== Sys2Proof/Laws/PerInstr.lean ====
section
/-! SUPPORT. Statements made for each operation of the opcode table. -/

namespace Sys2Proof.Laws.Coded

/-- The encoder gives the operation a code of the format its opcode-table row names (R35 to R38). -/
def Statement (i : Instr) : Prop := (encode i).format = i.format

theorem waitTick : Statement .waitTick := rfl
theorem setHigh : Statement .setHigh := rfl
theorem setLow : Statement .setLow := rfl
theorem bit0N : Statement .bit0N := rfl
theorem bit1N : Statement .bit1N := rfl
theorem bit0S : Statement .bit0S := rfl
theorem bit1S : Statement .bit1S := rfl
theorem color (r g b : Byte) : Statement (.color r g b) := rfl
theorem endSeq : Statement .endSeq := rfl
theorem nop : Statement .nop := rfl
theorem write : Statement .write := rfl
theorem new : Statement .new := rfl

end Sys2Proof.Laws.Coded
end

