-- ==== Sys2Proof/Laws/Step.lean ====
section
/-! SUPPORT. What a step can do, said once: `Moves u t` lists every way in which a step leads from the state
`u`, in which the tick source has acted, to a next state `t`. Claims about all steps are case analyses over
it. -/

namespace Sys2Proof.Machine

/-- The host port is served: while no command is in progress, and before construction only when no listing
is left; or eagerly during one (D10). -/
def State.Serves (u : State) : Prop :=
  u.discarded = false
    ∧ ((u.busy = false ∧ (u.unbuilt = true → u.listing = [])) ∨ (u.busy = true ∧ u.hostEager = true))

/-- The ways of a step from `u` (R61 to R65, R76 to R83). -/
inductive Moves (u : State) : State → Prop where
  | hold : Moves u u
  | itemHold : u.phase = .fetch → Moves u { u with items := u.items.pop }
  | discard (more : List HostAct) : u.phase = .idle → u.host = .discard :: more →
      Moves u { u with host := more, owned := false }
  | nop (c : Code2) (seq : Stream) (eager : Bool) (more : List HostAct) : u.Serves →
      u.host = .cmd c seq eager :: more → Moves u { u with host := more, offer := seq }
  | refuse (c : Code2) (seq : Stream) (eager : Bool) (more : List HostAct) (m : Mark) : u.Serves →
      u.host = .cmd c seq eager :: more →
      Moves u ({ u with host := more, offer := seq } |>.refuse m)
  | write (seq : Stream) (eager : Bool) (more : List HostAct) : u.Serves →
      u.host = .cmd 1#2 seq eager :: more → u.phase = .idle → u.owned = true →
      Moves u { u.record .cmdWrite with host := more, offer := seq, rest := seq, phase := .fetch }
  | new (seq : Stream) (eager : Bool) (more : List HostAct) : u.Serves →
      u.host = .cmd 2#2 seq eager :: more → u.phase = .uninit → u.owned = false → u.listing = [] →
      Moves u ({ u with host := more, offer := seq, owned := true }.record .new)
  | construct : u.phase = .uninit → u.owned = true → Moves u { u.pinSet .low with phase := .idle }
  | color (w : ElementWord) (rest : Stream) (colors : Draws (BitVec 24)) : u.phase = .fetch →
      w[24] = false →
      ((∃ ws, u.rest.words = w :: ws ∧ rest = { u.rest with words := ws } ∧ colors = u.colors)
        ∨ (u.rest.words = [] ∧ u.rest.endless = true ∧ rest = u.rest ∧ colors = u.colors.pop)) →
      Moves u { u.record (.fetch (.color (w.extractLsb' 16 8) (w.extractLsb' 8 8) (w.extractLsb' 0 8))) with
        items := u.items.pop, rest := rest, colors := colors
        r := some (w.extractLsb' 16 8), g := some (w.extractLsb' 8 8), b := some (w.extractLsb' 0 8)
        phase := .alignTick }
  | endSeq (rest : Stream) : u.phase = .fetch →
      ((∃ w ws, u.rest.words = w :: ws ∧ w[24] = true ∧ rest = { u.rest with words := ws })
        ∨ (u.rest.words = [] ∧ u.rest.endless = false ∧ rest = u.rest)) →
      Moves u { u.record (.fetch .endSeq) with
        items := u.items.pop, rest := rest, gap := some 0#8, phase := .resetGap }
  | alignHold : u.phase = .alignTick → u.waitTick.waiting = true → Moves u u.waitTick
  | align (v : Byte) : u.phase = .alignTick → u.waitTick.waiting = false → u.g = some v →
      Moves u { u.waitTick with
        ch := some 0#2, data := some v, bit := some 0#3, step := some 0#3, phase := .encodeByte }
  | symbolHold (d : Byte) (k : BitVec 3) (c : Code2) : u.phase = .encodeByte → u.data = some d →
      u.step = some k → (pattern u.cfg.profile (dataBit d))[k.toNat]? = some c → holdsAfter c u →
      Moves u (afterMicroOp c u)
  | symbolNext (d : Byte) (k : BitVec 3) (c : Code2) : u.phase = .encodeByte → u.data = some d →
      u.step = some k → (pattern u.cfg.profile (dataBit d))[k.toNat]? = some c → ¬ holdsAfter c u →
      k.toNat + 1 < Config.symbolLength u.cfg.profile →
      Moves u { afterMicroOp c u with step := some (k + 1#3) }
  | symbolBit (d : Byte) (k n : BitVec 3) (c : Code2) : u.phase = .encodeByte → u.data = some d →
      u.step = some k → (pattern u.cfg.profile (dataBit d))[k.toNat]? = some c → ¬ holdsAfter c u →
      k.toNat + 1 = Config.symbolLength u.cfg.profile → u.bit = some n → n.toNat < 7 →
      Moves u { afterMicroOp c u with
        step := some 0#3, data := some (shiftByte d), bit := some (n + 1#3) }
  | symbolByte (d v : Byte) (k n : BitVec 3) (c : Code2) (h : BitVec 2) : u.phase = .encodeByte →
      u.data = some d → u.step = some k → (pattern u.cfg.profile (dataBit d))[k.toNat]? = some c →
      ¬ holdsAfter c u → k.toNat + 1 = Config.symbolLength u.cfg.profile → u.bit = some n → n = 7#3 →
      u.ch = some h → ((h = 0#2 ∧ u.r = some v) ∨ (h = 1#2 ∧ u.b = some v)) →
      Moves u { afterMicroOp c u with
        step := some 0#3, data := some v, bit := some 0#3, ch := some (h + 1#2) }
  | symbolColor (d : Byte) (k n : BitVec 3) (c : Code2) (h : BitVec 2) : u.phase = .encodeByte →
      u.data = some d → u.step = some k → (pattern u.cfg.profile (dataBit d))[k.toNat]? = some c →
      ¬ holdsAfter c u → k.toNat + 1 = Config.symbolLength u.cfg.profile → u.bit = some n → n = 7#3 →
      u.ch = some h → 2 ≤ h.toNat →
      Moves u { afterMicroOp c u with
        step := some 0#3, data := some (shiftByte d), bit := some 0#3, phase := .fetch }
  | gapHold (n : BitVec 8) : u.phase = .resetGap → u.gap = some n → n.toNat < 160 →
      u.waitTick.waiting = true → Moves u u.waitTick
  | gap (n : BitVec 8) : u.phase = .resetGap → u.gap = some n → n.toNat < 160 →
      u.waitTick.waiting = false → Moves u { u.waitTick with gap := some (n + 1#8) }
  | complete (n : BitVec 8) : u.phase = .resetGap → u.gap = some n → n.toNat = 160 → Moves u u.complete
  | listingHold (cs : List Code2) : u.phase = .uninit → u.owned = false → u.listing = 0#2 :: cs →
      u.waitTick.waiting = true → Moves u u.waitTick
  | listing (c : Code2) (cs : List Code2) : u.phase = .uninit → u.owned = false → u.listing = c :: cs →
      c ≠ 3#2 → ¬ holdsAfter c u → Moves u { afterMicroOp c u with listing := cs }

theorem State.unbuilt_iff (u : State) : u.unbuilt = true ↔ u.phase = .uninit ∧ u.owned = false := by
  simp [State.unbuilt]

/-- A block not yet built has no command in progress. -/
theorem State.busy_of_unbuilt {u : State} (h : u.unbuilt = true) : u.busy = false := by
  obtain ⟨hp, ho⟩ := u.unbuilt_iff.mp h
  simp [State.busy, State.constructing, hp, ho, Phase.quiet]

/-- In progress are NEW, in UNINIT, and a write, in the phases of one. -/
theorem State.busy_iff (u : State) :
    u.busy = true ↔ u.phase.quiet = false ∨ (u.phase = .uninit ∧ u.owned = true) := by
  simp [State.busy, State.constructing]

/-- What the position gives, said once. -/
theorem State.fetch_cases (u : State) :
    (u.unbuilt = true ∧ ∃ c cs, u.listing = c :: cs ∧ u.fetch = .op .listing (.u c) { u with listing := cs })
    ∨ (((u.busy = false ∧ (u.unbuilt = true → u.listing = [])) ∨ (u.busy = true ∧ u.hostEager = true))
        ∧ u.fetch = u.fetchHost)
    ∨ (u.busy = true ∧ u.hostEager = false ∧ u.fetch = u.fetchPhase) := by
  cases hb : u.busy
  · cases hn : u.unbuilt
    · exact .inr (.inl ⟨.inl ⟨rfl, by simp⟩, by simp [State.fetch, State.fetchRest, hb, hn]⟩)
    · cases hl : u.listing with
      | nil => exact .inr (.inl ⟨.inl ⟨rfl, fun _ => rfl⟩, by simp [State.fetch, State.fetchRest, hb, hn, hl]⟩)
      | cons c cs => exact .inl ⟨rfl, c, cs, rfl, by simp [State.fetch, State.fetchRest, hb, hn, hl]⟩
  · cases he : u.hostEager
    · exact .inr (.inr ⟨rfl, rfl, by simp [State.fetch, hb, he]⟩)
    · exact .inr (.inl ⟨.inr ⟨rfl, rfl⟩, by simp [State.fetch, hb, he]⟩)

/-- The four codes of two bits. -/
theorem code2_cases (c : BitVec 2) : c = 0#2 ∨ c = 1#2 ∨ c = 2#2 ∨ c = 3#2 := by revert c; decide

theorem State.fetchHost_cmd {u : State} {c : Code2} {seq : Stream} {eager : Bool} {more : List HostAct}
    (hh : u.host = .cmd c seq eager :: more) (hd : u.discarded = false) :
    u.fetchHost = .op .host (.h c) { u with host := more, offer := seq } := by
  simp [State.fetchHost, hh, hd]

theorem State.fetchHost_hold {u : State} (h : u.host = [] ∨ u.discarded = true ∧ u.host.head? ≠ some .discard) :
    u.fetchHost = .hold u := by
  unfold State.fetchHost
  cases hh : u.host with
  | nil => rfl
  | cons a more =>
    cases a with
    | discard => simp [hh] at h
    | cmd c seq eager =>
      have hd : u.discarded = true := by
        rcases h with h | h
        · simp [hh] at h
        · exact h.1
      simp [hd]

theorem State.fetchHost_discard {u : State} {more : List HostAct} (hh : u.host = .discard :: more) :
    u.fetchHost = if u.phase = .idle then .hold { u with host := more, owned := false } else .hold u := by
  simp [State.fetchHost, hh]

theorem State.advance_listing_done (s : State) {i : Instr} (h : i = .waitTick → s.waiting = false) :
    s.advance .listing i = .next s := by
  unfold State.advance
  have : ¬ (i = .waitTick ∧ s.waiting = true) := fun x => by simp [h x.1] at x
  simp only [if_neg this]

theorem State.advance_listing_held (s : State) (h : s.waiting = true) :
    s.advance .listing .waitTick = .next { s with listing := 0#2 :: s.listing } := by
  simp only [State.advance, h, and_self, if_true]

theorem State.startColor_some {s : State} {v : Byte} (h : s.g = some v) :
    s.startColor = .next { s with
      ch := some 0#2, data := some v, bit := some 0#3, step := some 0#3, phase := .encodeByte } := by
  unfold State.startColor
  split <;> simp_all

/-- A step that serves the host port. -/
theorem moves_host {s t : State} (hf : s.tickEdges.fetch = s.tickEdges.fetchHost)
    (hs : (s.tickEdges.busy = false ∧ (s.tickEdges.unbuilt = true → s.tickEdges.listing = []))
      ∨ (s.tickEdges.busy = true ∧ s.tickEdges.hostEager = true))
    (h : step s = .next t) : Moves s.tickEdges t := by
  generalize hu : s.tickEdges = u at *
  unfold step at h
  rw [hu, hf] at h
  cases hh : u.host with
  | nil =>
    rw [State.fetchHost_hold (.inl hh)] at h
    cases h
    exact .hold
  | cons a more =>
    cases a with
    | discard =>
      rw [State.fetchHost_discard hh] at h
      by_cases hp : u.phase = .idle
      · simp only [if_pos hp] at h
        cases h
        exact .discard more hp hh
      · simp only [if_neg hp] at h
        cases h
        exact .hold
    | cmd c seq eager =>
      cases hd : u.discarded
      · have hsv : u.Serves := ⟨hd, hs⟩
        rw [State.fetchHost_cmd hh hd] at h
        rcases code2_cases c with rfl | rfl | rfl | rfl
        · cases h
          exact .nop _ _ _ _ hsv hh
        · change (match execWrite { u with host := more, offer := seq } with
            | .next v => State.advance v .host .write
            | .fault f => .fault f
            | .refused q => .refused q) = .next t at h
          unfold execWrite at h
          by_cases hp : u.phase = .idle
          · simp only [if_pos hp] at h
            cases h
            have ho : u.owned = true := by
              simpa [State.discarded, hp] using hd
            exact .write seq eager more hsv hh hp ho
          · simp only [if_neg hp] at h
            cases h
            exact .refuse _ _ _ _ _ hsv hh
        · change (match execNew { u with host := more, offer := seq } with
            | .next v => State.advance v .host .new
            | .fault f => .fault f
            | .refused q => .refused q) = .next t at h
          unfold execNew at h
          have hx : State.unbuilt { u with host := more, offer := seq } = u.unbuilt := rfl
          rw [hx] at h
          cases hn : u.unbuilt
          · simp only [hn, Bool.false_eq_true, if_false] at h
            cases h
            exact .refuse _ _ _ _ _ hsv hh
          · simp only [hn, if_true] at h
            cases h
            obtain ⟨hp, ho⟩ := u.unbuilt_iff.mp hn
            have hl : u.listing = [] := by
              rcases hs with hs | hs
              · exact hs.2 hn
              · rw [State.busy_of_unbuilt hn] at hs
                cases hs.1
            exact .new seq eager more hsv hh hp ho hl
        · cases h
          exact .refuse _ _ _ _ _ hsv hh
      · rw [State.fetchHost_hold (.inr ⟨hd, by simp [hh]⟩)] at h
        cases h
        exact .hold

/-- A step that asks the item source. -/
theorem moves_item {s t : State} (hp : s.tickEdges.phase = .fetch)
    (hf : s.tickEdges.fetch = s.tickEdges.fetchItem) (h : step s = .next t) : Moves s.tickEdges t := by
  generalize hu : s.tickEdges = u at *
  unfold step at h
  rw [hu, hf] at h
  unfold State.fetchItem at h
  cases hr : u.itemReadyNow
  · simp only [hr] at h
    cases h
    exact .itemHold hp
  · simp only [hr, if_true] at h
    cases hw : u.rest.words with
    | cons w ws =>
      simp only [hw] at h
      cases ht : w[24]
      · have hd : decode (.s w) = .ok (.color (w.extractLsb' 16 8) (w.extractLsb' 8 8) (w.extractLsb' 0 8)) := by
          simp [decode, decodeS, ht]
        simp only [State.perform, hd] at h
        cases h
        exact .color w _ _ hp ht (.inl ⟨ws, hw, rfl, rfl⟩)
      · have hd : decode (.s w) = .ok .endSeq := by simp [decode, decodeS, ht]
        simp only [State.perform, hd] at h
        cases h
        exact .endSeq _ hp (.inl ⟨w, ws, hw, ht, rfl⟩)
    | nil =>
      simp only [hw] at h
      cases he : u.rest.endless
      · simp only [he] at h
        have hd : decode (.s endWord) = .ok .endSeq := by decide
        simp only [Bool.false_eq_true, if_false, State.perform, hd] at h
        cases h
        exact .endSeq _ hp (.inr ⟨hw, he, rfl⟩)
      · simp only [he, if_true] at h
        generalize hx : u.colors.peek Config.endlessColor = x at h
        have ht : (0#1 ++ x)[24] = false := by
          rw [BitVec.getElem_append]
          simp
        have hd : decode (.s (0#1 ++ x)) = .ok (.color ((0#1 ++ x).extractLsb' 16 8)
            ((0#1 ++ x).extractLsb' 8 8) ((0#1 ++ x).extractLsb' 0 8)) := by
          simp only [decode, decodeS, ht]
          rfl
        simp only [State.perform, hd] at h
        cases h
        exact .color _ _ _ hp ht (.inr ⟨hw, he, rfl, rfl⟩)

/-- The end of a byte: the next channel is loaded, or the color is complete. -/
theorem State.byteDone_cases {s t : State} (h : s.byteDone = .next t) :
    ∃ c, s.ch = some c ∧
      ((∃ v, ((c = 0#2 ∧ s.r = some v) ∨ (c = 1#2 ∧ s.b = some v))
          ∧ t = { s with ch := some (c + 1#2), data := some v })
        ∨ (2 ≤ c.toNat ∧ t = { s with phase := .fetch })) := by
  unfold State.byteDone at h
  cases hc : s.ch with
  | none => simp [hc] at h
  | some c =>
    refine ⟨c, rfl, ?_⟩
    simp only [hc, moreChannels] at h
    by_cases hlt : c.toNat < 2
    · left
      rw [if_pos (by simpa using hlt)] at h
      have h01 : c = 0#2 ∨ c = 1#2 := by
        rcases code2_cases c with h | h | h | h
        · exact .inl h
        · exact .inr h
        · rw [h] at hlt
          exact absurd hlt (by decide)
        · rw [h] at hlt
          exact absurd hlt (by decide)
      rcases h01 with rfl | rfl
      · cases hr : s.r with
        | none => simp [State.channelByte, hr] at h
        | some v =>
          simp only [State.channelByte, hr] at h
          cases h
          exact ⟨v, .inl ⟨rfl, rfl⟩, rfl⟩
      · cases hb : s.b with
        | none => simp [State.channelByte, hb] at h
        | some v =>
          have h2 : ¬ (1#2 + 1#2 = 1#2) := by decide
          simp only [State.channelByte, hb, if_neg h2] at h
          cases h
          exact ⟨v, .inr ⟨rfl, rfl⟩, rfl⟩
    · right
      rw [if_neg (by simpa using hlt)] at h
      cases h
      exact ⟨by omega, rfl⟩

/-- An ENCODE_BYTE step. -/
theorem moves_symbol {u t : State} {d : Byte} (hp : u.phase = .encodeByte) (hd : u.data = some d)
    (h : u.encodeStep (pattern u.cfg.profile (dataBit d)) = .next t) : Moves u t := by
  cases hk : u.step with
  | none => simp [State.encodeStep, hk] at h
  | some k =>
    cases hc : (pattern u.cfg.profile (dataBit d))[k.toNat]? with
    | none => simp [State.encodeStep, hk, hc] at h
    | some c =>
      have hn := pattern_codes _ _ c (List.mem_of_getElem? hc)
      have hlt : k.toNat < Config.symbolLength u.cfg.profile := by
        have := (List.getElem?_eq_some_iff.mp hc).1
        rwa [pattern_length] at this
      rw [u.encodeStep_eq _ hk hc hn, pattern_length] at h
      by_cases hh : holdsAfter c u
      · rw [if_pos ((State.held_iff u c).mpr hh)] at h
        cases h
        exact .symbolHold d k c hp hd hk hc hh
      · rw [if_neg (fun x => hh ((State.held_iff u c).mp x))] at h
        by_cases hm : k.toNat + 1 < Config.symbolLength u.cfg.profile
        · rw [if_pos hm] at h
          cases h
          exact .symbolNext d k c hp hd hk hc hh hm
        · rw [if_neg hm] at h
          have hl : k.toNat + 1 = Config.symbolLength u.cfg.profile := by omega
          unfold State.symbolDone at h
          simp only [afterMicroOp_data, afterMicroOp_bit, hd] at h
          cases hb : u.bit with
          | none => simp [hb] at h
          | some n =>
            simp only [hb, moreBits] at h
            by_cases h7 : n.toNat < 7
            · simp only [h7, decide_true, if_true] at h
              cases h
              exact .symbolBit d k n c hp hd hk hc hh hl hb h7
            · simp only [h7, decide_false, Bool.false_eq_true, if_false] at h
              have hn7 : n = 7#3 := by
                apply BitVec.eq_of_toNat_eq
                have := n.isLt
                simp only [BitVec.toNat_ofNat]
                omega
              obtain ⟨ch, hch, ⟨v, hv, rfl⟩ | ⟨hge, rfl⟩⟩ := State.byteDone_cases h
              · simp only [afterMicroOp_ch, afterMicroOp_r, afterMicroOp_b] at hch hv
                exact .symbolByte d v k n c ch hp hd hk hc hh hl hb hn7 hch hv
              · simp only [afterMicroOp_ch] at hch
                exact .symbolColor d k n c ch hp hd hk hc hh hl hb hn7 hch hge

/-- Every step that has a next state is one of `Moves`. -/
theorem step_moves {s t : State} (h : step s = .next t) : Moves s.tickEdges t := by
  rcases s.tickEdges.fetch_cases with ⟨hn, c, cs, hl, hf⟩ | ⟨hs, hf⟩ | ⟨hq, he, hf⟩
  · generalize hu : s.tickEdges = u at *
    obtain ⟨hp, ho⟩ := u.unbuilt_iff.mp hn
    unfold step at h
    rw [hu, hf] at h
    rcases code2_cases c with rfl | rfl | rfl | rfl
    · have hx : State.waitTick { u with listing := cs } = { u.waitTick with listing := cs } := by
        rw [State.waitTick_eq, State.waitTick_eq]
        rfl
      change State.advance (State.waitTick { u with listing := cs }) .listing .waitTick = .next t at h
      rw [hx] at h
      cases hw : u.waitTick.waiting
      · have hnh : ¬ holdsAfter 0#2 u := fun x => by
          have := x.2
          rw [show afterMicroOp 0#2 u = u.waitTick from rfl, hw] at this
          cases this
        have ht := (State.advance_listing_done { u.waitTick with listing := cs } (i := .waitTick) fun _ => hw).symm.trans h
        cases ht
        exact .listing 0#2 cs hp ho hl (by decide) hnh
      · have hk : ({ u.waitTick with listing := 0#2 :: cs } : State) = u.waitTick := by
          rw [← hl, ← State.waitTick_listing]
        have ht := (State.advance_listing_held { u.waitTick with listing := cs } hw).symm.trans h
        cases ht
        have hm := Moves.listingHold cs hp ho hl hw
        rw [← hk] at hm
        exact hm
    · cases h
      exact .listing _ cs hp ho hl (by decide) (by simp [holdsAfter])
    · cases h
      exact .listing _ cs hp ho hl (by decide) (by simp [holdsAfter])
    · cases h
  · exact moves_host hf hs h
  · generalize hu : s.tickEdges = u at *
    cases hp : u.phase with
    | uninit =>
      have ho : u.owned = true := by
        rcases u.busy_iff.mp hq with h | h
        · rw [hp] at h
          cases h
        · exact h.2
      simp only [State.fetchPhase, hp] at hf
      unfold step at h
      rw [hu, hf] at h
      cases h
      exact .construct hp ho
    | idle =>
      rcases u.busy_iff.mp hq with h | h
      · rw [hp] at h
        cases h
      · rw [hp] at h
        cases h.1
    | fetch =>
      rw [← hu] at hp hf
      rw [← hu]
      refine moves_item hp ?_ h
      rw [hf]
      simp only [State.fetchPhase, hp]
    | alignTick =>
      simp only [State.fetchPhase, hp] at hf
      unfold step at h
      rw [hu, hf] at h
      simp only [State.perform, decode, decodeU, exec, execWaitTick, State.advance, if_true] at h
      cases hw : u.waitTick.waiting
      · simp only [hw] at h
        cases hg : u.g with
        | none => simp [State.startColor, hg] at h
        | some v =>
          have hg' : u.waitTick.g = some v := by rw [State.waitTick_g, hg]
          simp only [Bool.false_eq_true, if_false, State.startColor_some hg'] at h
          cases h
          exact .align v hp hw hg
      · simp only [hw, if_true] at h
        cases h
        exact .alignHold hp hw
    | encodeByte =>
      simp only [State.fetchPhase, hp] at hf
      cases hd : u.data with
      | none =>
        rw [hd] at hf
        unfold step at h
        rw [hu, hf] at h
        cases h
      | some d =>
        rw [hd] at hf
        unfold step at h
        rw [hu, hf] at h
        refine moves_symbol hp hd ?_
        have hx := exec_decodeB u.cfg.profile (dataBit d) u
        simp only [State.perform, decode, State.symbolNow, hx, State.advance] at h
        cases he2 : u.encodeStep (pattern u.cfg.profile (dataBit d)) with
        | next v => rw [he2] at h; exact h
        | fault f => rw [he2] at h; cases h
        | refused q => rw [he2] at h; cases h
    | resetGap =>
      simp only [State.fetchPhase, hp] at hf
      cases hg : u.gap with
      | none =>
        rw [hg] at hf
        unfold step at h
        rw [hu, hf] at h
        cases h
      | some n =>
        simp only [hg, show Config.gapTicks = 160 from rfl] at hf
        unfold step at h
        by_cases hlt : n.toNat < 160
        · rw [hu, hf, if_pos hlt] at h
          simp only [State.perform, decode, decodeU, exec, execWaitTick, State.advance, if_true] at h
          cases hw : u.waitTick.waiting
          · simp only [hw] at h
            simp only [State.countGap, State.waitTick_gap, hg] at h
            cases h
            exact .gap n hp hg hlt hw
          · simp only [hw, if_true] at h
            cases h
            exact .gapHold n hp hg hlt hw
        · rw [hu, hf, if_neg hlt] at h
          by_cases heq : n.toNat = 160
          · rw [if_pos heq] at h
            cases h
            exact .complete n hp hg heq
          · rw [if_neg heq] at h
            cases h

end Sys2Proof.Machine
end

