-- ==== Sys2Proof/Laws/Trace.lean ====
section
/-! SUPPORT. What a step does to the trace and the line, said once (R22, R31). -/

namespace Sys2Proof.Machine

/-- What a completed micro-operation records: one WAIT with the line as it was, or one PIN with the line at
its level when the answer is OK (R47 to R50). -/
theorem afterMicroOp_entry {c : Code2} (hc : c ≠ 3#2) (s : State) (hh : ¬ holdsAfter c s) :
    ∃ ev, (afterMicroOp c s).log = s.log ++ [entry s.clock ev (afterMicroOp c s).line]
      ∧ eventShape ev = codeEvent c
      ∧ ((∃ how, ev = .wait how ∧ (afterMicroOp c s).line = s.line)
        ∨ ∃ level a, ev = .pin level a ∧ (a = .ok → (afterMicroOp c s).line = level)) := by
  have hpin : ∀ level, ∃ ev, (s.pinSet level).log = s.log ++ [entry s.clock ev (s.pinSet level).line]
      ∧ eventShape ev = .pin level .ok
      ∧ ((∃ how, ev = .wait how ∧ (s.pinSet level).line = s.line)
        ∨ ∃ l a, ev = .pin l a ∧ (a = .ok → (s.pinSet level).line = l)) := by
    intro level
    refine ⟨.pin level (answerOf s.pinNow), rfl, rfl, .inr ⟨level, _, rfl, fun h => ?_⟩⟩
    rw [State.pinSet_line]
    cases hp : s.pinNow with
    | ok => rfl
    | err after => rw [hp] at h; cases h
  rcases code2_cases c with rfl | rfl | rfl | rfl
  · have hw : s.waitEnds = true := by
      cases hw : s.waitEnds with
      | true => rfl
      | false =>
        refine absurd ⟨rfl, ?_⟩ hh
        rw [show afterMicroOp 0#2 s = s.waitTick from rfl, State.waitTick_waiting, hw]
        rfl
    refine ⟨.wait (if s.pollFailsNow then .error else .tick), ?_, rfl, .inl ⟨_, rfl, ?_⟩⟩
    · rw [show afterMicroOp 0#2 s = s.waitTick from rfl, State.waitTick_line, State.waitTick_eq, hw]
      rfl
    · rw [show afterMicroOp 0#2 s = s.waitTick from rfl, State.waitTick_line]
  · exact hpin .high
  · exact hpin .low
  · exact absurd rfl hc

/-- While a wait is in progress nothing is recorded and the line keeps its level. -/
theorem afterMicroOp_held {c : Code2} {s : State} (hh : holdsAfter c s) :
    (afterMicroOp c s).log = s.log ∧ (afterMicroOp c s).line = s.line := by
  obtain ⟨rfl, hw⟩ := hh
  rw [show afterMicroOp 0#2 s = s.waitTick from rfl] at hw ⊢
  refine ⟨?_, State.waitTick_line s⟩
  rw [State.waitTick_waiting] at hw
  rw [State.waitTick_eq]
  cases he : s.waitEnds with
  | false => rfl
  | true => rw [he] at hw; cases hw

/-- The ways of a step to change the trace, the line, and whether a write runs. -/
inductive LogMove (u t : State) : Prop where
  | silent : t.log = u.log → t.line = u.line → t.phase.quiet = u.phase.quiet →
      t.unbuilt = u.unbuilt → LogMove u t
  | micro (c : Code2) (ev : Event) : c ≠ 3#2 → t.log = u.log ++ [entry t.clock ev t.line] →
      eventShape ev = codeEvent c →
      ((∃ how, ev = .wait how ∧ t.line = u.line) ∨ ∃ level a, ev = .pin level a ∧ (a = .ok → t.line = level)) →
      t.phase.quiet = u.phase.quiet → t.unbuilt = u.unbuilt → LogMove u t
  | write : t.log = u.log ++ [entry t.clock .cmdWrite t.line] → t.line = u.line → u.phase = .idle →
      t.phase = .fetch → LogMove u t
  | item (e : Element) : t.log = u.log ++ [entry t.clock (.fetch e) t.line] → t.line = u.line →
      u.phase = .fetch → t.phase.quiet = false → LogMove u t
  | done : t.log = u.log ++ [entry t.clock (.done .ok) t.line] → t.line = u.line → u.phase = .resetGap →
      t.phase = .idle → LogMove u t
  | new : t.log = u.log ++ [entry t.clock .new t.line] → t.line = u.line → t.phase.quiet = u.phase.quiet →
      u.unbuilt = true → t.unbuilt = false → LogMove u t

/-- A block past UNINIT is built. -/
theorem State.unbuilt_of_ne {u : State} (h : u.phase ≠ .uninit) : u.unbuilt = false := by
  simp [State.unbuilt, h]

theorem Phase.ne_uninit_of_busy {p : Phase} (h : p.quiet = false) : p ≠ .uninit := by
  rintro rfl
  cases h

/-- A step that performs the micro-operation `c` and leaves a busy phase busy. -/
theorem logMove_micro {u t : State} {c : Code2} (hc : c ≠ 3#2) (hlog : t.log = (afterMicroOp c u).log)
    (hline : t.line = (afterMicroOp c u).line) (hclock : t.clock = u.clock)
    (hq : t.phase.quiet = u.phase.quiet) (hi : t.unbuilt = u.unbuilt) : LogMove u t := by
  by_cases hh : holdsAfter c u
  · obtain ⟨h1, h2⟩ := afterMicroOp_held hh
    exact .silent (hlog.trans h1) (hline.trans h2) hq hi
  · obtain ⟨ev, h1, h2, h3⟩ := afterMicroOp_entry hc u hh
    refine .micro c ev hc ?_ h2 ?_ hq hi
    · rw [hlog, h1, hclock, hline]
    · rw [hline]
      exact h3

theorem State.unbuilt_congr {t u : State} (hp : t.phase = u.phase) (ho : t.owned = u.owned) :
    t.unbuilt = u.unbuilt := by
  simp [State.unbuilt, hp, ho]

/-- As `logMove_micro`, for a step inside a write. -/
theorem logMove_busy {u t : State} {c : Code2} (hc : c ≠ 3#2) (hlog : t.log = (afterMicroOp c u).log)
    (hline : t.line = (afterMicroOp c u).line) (hclock : t.clock = u.clock)
    (hu : u.phase.quiet = false) (ht : t.phase.quiet = false) : LogMove u t :=
  logMove_micro hc hlog hline hclock (ht.trans hu.symm)
    ((State.unbuilt_of_ne (Phase.ne_uninit_of_busy ht)).trans
      (State.unbuilt_of_ne (Phase.ne_uninit_of_busy hu)).symm)

theorem logMove_of_moves {u t : State} (h : Moves u t) : LogMove u t := by
  have hsym : ∀ {d : Byte} {k : BitVec 3} {c : Code2},
      (pattern u.cfg.profile (dataBit d))[k.toNat]? = some c → c ≠ 3#2 :=
    fun h => pattern_codes _ _ _ (List.mem_of_getElem? h)
  have hbusy : ∀ {p : Phase}, u.phase = p → p.quiet = false → u.phase.quiet = false := fun hp hq => by rw [hp, hq]
  cases h with
  | hold => exact .silent rfl rfl rfl rfl
  | itemHold hp => exact .silent rfl rfl rfl rfl
  | discard more hp hh =>
    exact .silent rfl rfl rfl
      ((State.unbuilt_of_ne (by simp [hp])).trans (State.unbuilt_of_ne (by simp [hp])).symm)
  | nop c seq eager more hs hh => exact .silent rfl rfl rfl rfl
  | refuse c seq eager more m hs hh => exact .silent rfl rfl rfl rfl
  | write seq eager more hs hh hp ho => exact .write rfl rfl hp rfl
  | new seq eager more hs hh hp ho hl =>
    exact .new rfl rfl rfl (u.unbuilt_iff.mpr ⟨hp, ho⟩) (by simp [State.unbuilt, State.record])
  | construct hp ho =>
    refine logMove_micro (c := 2#2) (by decide) rfl rfl rfl ?_ ?_
    · rw [hp]
      rfl
    · rw [State.unbuilt_of_ne (by simp)]
      simp [State.unbuilt, ho]
  | color w rest colors hp ht hr => exact .item _ rfl rfl hp rfl
  | endSeq rest hp hr => exact .item _ rfl rfl hp rfl
  | alignHold hp hw =>
    exact logMove_busy (c := 0#2) (by decide) rfl rfl (State.waitTick_clock u) (hbusy hp rfl)
      (by rw [State.waitTick_phase, hp]; rfl)
  | align v hp hw hg =>
    exact logMove_busy (c := 0#2) (by decide) rfl rfl (State.waitTick_clock u) (hbusy hp rfl) rfl
  | symbolHold d k c hp hd hk hc hh =>
    exact logMove_busy (hsym hc) rfl rfl (afterMicroOp_clock c u) (hbusy hp rfl)
      (by rw [afterMicroOp_phase, hp]; rfl)
  | symbolNext d k c hp hd hk hc hh hl =>
    exact logMove_busy (hsym hc) rfl rfl (afterMicroOp_clock c u) (hbusy hp rfl) (by simp [hp]; rfl)
  | symbolBit d k n c hp hd hk hc hh hl hb h7 =>
    exact logMove_busy (hsym hc) rfl rfl (afterMicroOp_clock c u) (hbusy hp rfl) (by simp [hp]; rfl)
  | symbolByte d v k n c h hp hd hk hc hh hl hb h7 hch hv =>
    exact logMove_busy (hsym hc) rfl rfl (afterMicroOp_clock c u) (hbusy hp rfl) (by simp [hp]; rfl)
  | symbolColor d k n c h hp hd hk hc hh hl hb h7 hch hge =>
    exact logMove_busy (hsym hc) rfl rfl (afterMicroOp_clock c u) (hbusy hp rfl) rfl
  | gapHold n hp hg hlt hw =>
    exact logMove_busy (c := 0#2) (by decide) rfl rfl (State.waitTick_clock u) (hbusy hp rfl)
      (by rw [State.waitTick_phase, hp]; rfl)
  | gap n hp hg hlt hw =>
    exact logMove_busy (c := 0#2) (by decide) rfl rfl (State.waitTick_clock u) (hbusy hp rfl) (by simp [hp]; rfl)
  | complete n hp hg he => exact .done rfl rfl hp rfl
  | listingHold cs hp ho hl hw =>
    exact logMove_micro (c := 0#2) (by decide) rfl rfl (State.waitTick_clock u) (by rw [State.waitTick_phase])
      (State.unbuilt_congr (State.waitTick_phase u) (State.waitTick_owned u))
  | listing c cs hp ho hl hc hh =>
    exact logMove_micro hc rfl rfl (afterMicroOp_clock c u) (by simp)
      (State.unbuilt_congr (afterMicroOp_phase c u) (afterMicroOp_owned c u))

/-- What a step does to the trace and the line, from the state before the tick source acts. -/
theorem step_logMove {s t : State} (h : step s = .next t) : LogMove s.tickEdges t :=
  logMove_of_moves (step_moves h)

end Sys2Proof.Machine
end

