-- ==== Sys2Proof/Tests/Slice0.lean ====
section
/-! SUPPORT. Tests from the words and vectors of spec/95_test_vectors.md, each about one step, and for every
statement with hypotheses a witness: a concrete state and operands that meet them. -/

namespace Sys2Proof.Tests

open Sys2Proof.Machine

/-! ### Words of the spec decode (spec/30_encoding.md R35 to R38, R42) -/

theorem test_decode_waitTick : decode (.u 0b00#2) = .ok .waitTick := by decide
theorem test_decode_setHigh : decode (.u 0b01#2) = .ok .setHigh := by decide
theorem test_decode_setLow : decode (.u 0b10#2) = .ok .setLow := by decide
theorem test_decode_bit0N : decode (.b 0b00#2) = .ok .bit0N := by decide
theorem test_decode_bit1N : decode (.b 0b01#2) = .ok .bit1N := by decide
theorem test_decode_bit0S : decode (.b 0b10#2) = .ok .bit0S := by decide
theorem test_decode_bit1S : decode (.b 0b11#2) = .ok .bit1S := by decide
/-- F4: `0 11111111 00000000 10000000`. -/
theorem test_decode_color : decode (.s 0b0111111110000000010000000#25) = .ok (.color 255#8 0#8 128#8) := by decide
/-- F8. -/
theorem test_decode_end : decode (.s 0b1000000000000000000000000#25) = .ok .endSeq := by decide
/-- F9: the payload is ignored. -/
theorem test_decode_end_payload : decode (.s 0x1ABCDEF#25) = .ok .endSeq := by decide
theorem test_decode_nop : decode (.h 0b00#2) = .ok .nop := by decide
theorem test_decode_write : decode (.h 0b01#2) = .ok .write := by decide
theorem test_decode_new : decode (.h 0b10#2) = .ok .new := by decide
/-- F2. -/
theorem test_decode_reserved : decode (.u 0b11#2) = .error .reservedMicroop := by decide
/-- F11. -/
theorem test_decode_host11 : decode (.h 0b11#2) = .error .refusedHostCode := by decide
/-- F12. -/
theorem test_lineWord : lineWord 255#8 0#8 128#8 = 0x00FF80#24 := by decide
/-- Y5, NORMAL: the first two symbols of `0xA5` are `010020` and `010200`. -/
theorem test_byteCodes : (byteCodes .normal 0xA5#8).take 12
    = [0#2, 1#2, 0#2, 0#2, 2#2, 0#2, 0#2, 1#2, 0#2, 2#2, 0#2, 0#2] := by decide
theorem test_tableWord_color : decodeTableWord 32 0x0010203 = some (.color 1#8 2#8 3#8) := by decide
theorem test_tableWord_short : decodeTableWord 8 3 = some .bit1S := by decide

/-! ### WellFormed refuses a symbol of the other profile, and another tick rate -/

theorem test_ill_bit0N : Instr.wellFormed .slow .bit0N = false := by decide
theorem test_ill_bit1N : Instr.wellFormed .slow .bit1N = false := by decide
theorem test_ill_bit0S : Instr.wellFormed .normal .bit0S = false := by decide
theorem test_ill_bit1S : Instr.wellFormed .normal .bit1S = false := by decide

/-- Parameters for the tests: the conventions of spec/95_test_vectors.md. -/
def params : Params where
  profile := .normal
  tickLatch := true
  tickMayFail := false
  tickHz := 3000000
  tPin := 0
  tStep := 0
  tFetch := 0
  slowZeroHigh := 0

theorem test_ill_rate : Params.meetsRate { params with tickHz := 3200000 } = false := by decide

/-! ### States for the tests -/

/-- A constructed block at rest, with the draws of the environment given. -/
def rest : State :=
  { State.reset with
    cfg := params, phase := .idle, owned := true, line := .low, pending := false
    edges := { script := [0, 0], used := 0 }
    polls := { script := [false, false], used := 0 }
    pins := { script := [.ok, .ok], used := 0 }
    items := { script := [true], used := 0 }
    colors := { script := [0x010203#24], used := 0 } }

/-- A block not yet built. -/
def unbuilt : State := { rest with phase := .uninit, owned := false }

/-- A block inside NEW. -/
def building : State := { rest with phase := .uninit }

/-- A write at the start of the green byte `0x80`. -/
def sending : State :=
  { rest with
    phase := .encodeByte, r := some 255#8, g := some 0x80#8, b := some 3#8
    ch := some 0#2, data := some 0x80#8, bit := some 0#3, step := some 0#3 }

/-- A write in its reset gap. -/
def inGap : State := { sending with phase := .resetGap, gap := some 159#8 }

/-- A write waiting for its alignment tick. -/
def aligning : State := { sending with phase := .alignTick }

/-- The next state of an outcome. -/
def nextOf : Host.Outcome State Fault Refusal → Option State
  | .next s => some s
  | .fault _ => none
  | .refused _ => none

/-- A field of the next state. -/
def after {α : Type} (f : State → α) (o : Host.Outcome State Fault Refusal) : Option α := (nextOf o).map f

/-- The reason of a fault. -/
def faultOf : Host.Outcome State Fault Refusal → Option Fault
  | .next _ => none
  | .fault f => some f
  | .refused _ => none

/-! ### One step of each operation -/

/-- W1: `TICK_LATCH = 1` and a pending tick: the wait ends at its first poll and consumes it. -/
theorem test_waitTick_pending :
    after (fun t => (t.events, t.pending, t.waiting)) (exec .waitTick { rest with pending := true })
      = some ([.wait .tick], false, false) := by decide

/-- W3: `TICK_LATCH = 0`: the pending tick is cleared when the wait begins. -/
theorem test_waitTick_unlatched :
    after (fun t => (t.events, t.pending, t.waiting))
      (exec .waitTick { rest with pending := true, cfg := { params with tickLatch := false } })
      = some ([], false, true) := by decide

/-- W4: an ERROR ends the wait and leaves the tick pending. -/
theorem test_waitTick_error :
    after (fun t => (t.events, t.pending, t.waiting))
      (exec .waitTick { rest with
        pending := true
        cfg := { params with tickMayFail := true }
        polls := { script := [true], used := 0 } })
      = some ([.wait .error], true, false) := by decide

/-- P1. -/
theorem test_setHigh : after (fun t => (t.events, t.line)) (exec .setHigh rest)
    = some ([.pin .high .ok], .high) := by decide

/-- P5: an ERR leaves the drawn level. -/
theorem test_setLow_err :
    after (fun t => (t.events, t.line))
      (exec .setLow { rest with line := .high, pins := { script := [.err .high], used := 0 } })
      = some ([.pin .low .err], .high) := by decide

/-- Row 8 of L2.5: the last wait of a BIT0.N completes the symbol. -/
theorem test_bit0N_completes :
    after (fun t => (t.data, t.bit, t.step))
      (exec .bit0N { sending with data := some 0#8, step := some 5#3, pending := true })
      = some (some 0#8, some 1#3, some 0#3) := by decide

/-- Row 50 of L2.5: the green byte is complete and red (255) is loaded. -/
theorem test_bit0N_loads_red :
    after (fun t => (t.ch, t.data, t.bit, t.step, t.phase))
      (exec .bit0N { sending with data := some 0#8, bit := some 7#3, step := some 5#3, pending := true })
      = some (some 1#2, some 255#8, some 0#3, some 0#3, .encodeByte) := by decide

/-- R52: the fifth micro-operation of BIT1.N is SET_LOW. -/
theorem test_bit1N_fifth :
    after (fun t => (t.events, t.step)) (exec .bit1N { sending with step := some 4#3 })
      = some ([.pin .low .ok], some 5#3) := by decide

/-- R55: in BIT0.S the SET_LOW follows the SET_HIGH. -/
theorem test_bit0S_third :
    after (fun t => (t.events, t.step)) (exec .bit0S { sending with step := some 2#3 })
      = some ([.pin .low .ok], some 3#3) := by decide

/-- R54: BIT1.S ends with its SET_LOW, and the byte shifts. -/
theorem test_bit1S_ends :
    after (fun t => (t.events, t.data, t.bit, t.step)) (exec .bit1S { sending with step := some 4#3 })
      = some ([.pin .low .ok], some 0#8, some 1#3, some 0#3) := by decide

/-- Row 1 of L2.5. -/
theorem test_color :
    after (fun t => (t.events, t.phase, t.r, t.g, t.b)) (exec (.color 255#8 0#8 128#8) { rest with phase := .fetch })
      = some ([.fetch (.color 255#8 0#8 128#8)], .alignTick, some 255#8, some 0#8, some 128#8) := by decide

/-- Q1: END first; no earlier field is touched. -/
theorem test_endSeq :
    after (fun t => (t.events, t.phase, t.gap, t.data)) (exec .endSeq { rest with phase := .fetch })
      = some ([.fetch .endSeq], .resetGap, some 0#8, none) := by decide

/-- D6. -/
theorem test_nop : after (fun t => decide (t = rest)) (exec .nop rest) = some true := by decide

/-- R78. -/
theorem test_write :
    after (fun t => (t.events, t.phase, t.rest.words))
      (exec .write { rest with offer := { words := [endWord], endless := false } })
      = some ([.cmdWrite], .fetch, [endWord]) := by decide

/-- D5. -/
theorem test_write_refused :
    after (fun t => (t.events, t.phase, t.marks)) (exec .write sending)
      = some ([], .encodeByte, [.refusedWrite]) := by decide

/-- D1, its first event. -/
theorem test_new :
    after (fun t => (t.events, t.owned, t.line)) (exec .new { unbuilt with line := .high })
      = some ([.new], true, .high) := by decide

/-- D1, its second event: one SET_LOW, then IDLE. -/
theorem test_new_pin :
    after (fun t => (t.events, t.phase, t.line)) (step { building with line := .high })
      = some ([.pin .low .ok], .idle, .low) := by decide

/-- D3. -/
theorem test_new_refused :
    after (fun t => (t.events, t.phase, t.marks)) (exec .new rest) = some ([], .idle, [.refusedNew]) := by decide

/-- E1: the alignment step of a block whose green channel was never written. -/
theorem test_unwritten_green : faultOf (step { aligning with g := none, pending := true })
    = some (.unwrittenField .g) := by decide

/-- E2: `11` in a micro-operation string. -/
theorem test_reserved_microop : faultOf (step { unbuilt with listing := [0b11#2] }) = some .reservedMicroop := by decide

/-- R65. -/
theorem test_complete :
    after (fun t => (t.events, t.phase)) (step { inGap with gap := some 160#8 })
      = some ([.done .ok], .idle) := by decide

/-- R36: the symbol a NORMAL block selects for data `0x80` is BIT1.N. -/
theorem test_symbol_selected : decode (.b (symbolCode .normal (dataBit 0x80#8))) = .ok .bit1N := by decide

/-- The rows a table word names run as the first step after reset. -/
theorem test_table_words_run :
    (nextOf (step (State.reset.withFetchWord 8 0))).isSome = true
      ∧ (nextOf (step (State.reset.withFetchWord 8 1))).isSome = true
      ∧ (nextOf (step (State.reset.withFetchWord 8 2))).isSome = true
      ∧ (nextOf (step (State.reset.withFetchWord 8 3))).isSome = true
      ∧ (nextOf (step (State.reset.withFetchWord 32 0x0FF0080))).isSome = true
      ∧ (nextOf (step (State.reset.withFetchWord 32 0x1000000))).isSome = true :=
  ⟨rfl, rfl, rfl, rfl, rfl, rfl⟩

/-- A placed symbol has every field its steps read, so it runs to its end. -/
theorem test_placed_symbol_inRange : (State.reset.place (.b 0b11#2)).inRange = true := by decide

/-! ### Witnesses: concrete states and operands that meet the hypotheses of each statement -/

theorem rest_inv : rest.Inv := ⟨rfl, by decide, by decide, by decide, by decide⟩
theorem sending_inv : sending.Inv := ⟨rfl, by decide, by decide, by decide, by decide⟩
theorem inGap_inv : inGap.Inv := ⟨rfl, by decide, by decide, by decide, by decide⟩

theorem witness_DecodeAndEncodeAgree :
    decode (.u 0b01#2) = .ok .setHigh ∧ decode (.s 0x1ABCDEF#25) = .ok .endSeq := by decide

theorem witness_FrameStringDeterminesColors :
    frameCodes .slow [(1#8, 2#8, 3#8)] = frameCodes .slow [(1#8, 2#8, 3#8)] := rfl

theorem witness_WaitTickPolls :
    State.pollFailsNow { rest with cfg := { params with tickMayFail := true }, polls := { script := [true], used := 0 } }
        = true
      ∧ (rest.pollFailsNow = false ∧ (true && (rest.cfg.tickLatch || rest.waiting)) = true)
      ∧ (rest.pollFailsNow = false ∧ (rest.pending && (rest.cfg.tickLatch || rest.waiting)) = false) := by decide

theorem witness_SetHighCommandsLine :
    rest.pinNow = .ok ∧ State.pinNow { rest with pins := { script := [.err .low], used := 0 } } = .err .low := by decide

theorem witness_SetLowCommandsLine :
    rest.pinNow = .ok ∧ State.pinNow { rest with pins := { script := [.err .high], used := 0 } } = .err .high := by decide

/-- A state at the last micro-operation of a BIT1.N, its wait not over. -/
def atLast : State := { sending with step := some 5#3 }

/-- The same with a tick pending, so that the wait ends. -/
def atLastTick : State := { atLast with pending := true }

theorem witness_SymbolPerformsNextMicroOp :
    (Instr.bit1N, [0#2, 1#2, 0#2, 0#2, 2#2, 0#2]) ∈ symbolTable
      ∧ sending.step = some 0#3 ∧ (0#3).toNat + 1 < 6 ∧ [0#2, 1#2, 0#2, 0#2, 2#2, 0#2][(0#3).toNat]? = some 0#2
      ∧ holdsAfter 0#2 sending
      ∧ State.step { sending with step := some 1#3 } = some 1#3
      ∧ [0#2, 1#2, 0#2, 0#2, 2#2, 0#2][(1#3).toNat]? = some 1#2
      ∧ ¬ holdsAfter 1#2 { sending with step := some 1#3 } := by
  unfold holdsAfter
  decide

theorem witness_SymbolEndShiftsByte :
    atLast.step = some 5#3 ∧ (5#3).toNat + 1 = 6 ∧ [0#2, 1#2, 0#2, 0#2, 2#2, 0#2][(5#3).toNat]? = some 0#2
      ∧ atLast.data = some 0x80#8 ∧ atLast.bit = some 0#3 ∧ (0#3).toNat < 7
      ∧ State.bit { atLast with bit := some 6#3 } = some 6#3 ∧ (6#3).toNat < 7
      ∧ holdsAfter 0#2 atLast ∧ ¬ holdsAfter 0#2 atLastTick := by
  unfold holdsAfter
  decide

theorem witness_ByteEndLoadsNextChannel :
    State.bit { atLastTick with bit := some 7#3 } = some 7#3 ∧ atLastTick.ch = some 0#2
      ∧ atLastTick.r = some 255#8 ∧ State.ch { atLastTick with ch := some 1#2 } = some 1#2
      ∧ atLastTick.b = some 3#8
      ∧ holdsAfter 0#2 { atLast with bit := some 7#3 } ∧ ¬ holdsAfter 0#2 { atLastTick with bit := some 7#3 } := by
  unfold holdsAfter
  decide

theorem witness_ColorEndAsksNextItem :
    State.ch { atLastTick with bit := some 7#3, ch := some 2#2 } = some 2#2
      ∧ holdsAfter 0#2 { atLast with bit := some 7#3, ch := some 2#2 }
      ∧ ¬ holdsAfter 0#2 { atLastTick with bit := some 7#3, ch := some 2#2 } := by
  unfold holdsAfter
  decide

theorem witness_SymbolStopsOffItsPattern :
    State.step { sending with step := none } = none
      ∧ (Instr.bit1S, [0#2, 1#2, 0#2, 0#2, 2#2]) ∈ symbolTable
      ∧ State.step { sending with step := some 5#3 } = some 5#3 ∧ 5 ≤ (5#3).toNat := by decide

/-- A symbol's start with the given profile, byte, edges and pin draws. -/
def symbolStart (p : Profile) (d : Byte) (edges : List Nat) : State :=
  { sending with
    cfg := { params with profile := p }
    data := some d
    edges := { script := edges, used := 0 } }

theorem witness_Bit1NormalWaveform :
    AtSymbolStart (symbolStart .normal 0x80#8 [1, 0, 1, 1, 0, 1]) .normal true [1, 0, 1, 1, 0, 1] .ok .ok :=
  ⟨⟨rfl, by decide, by decide, by decide, by decide⟩, rfl, rfl, rfl, rfl, rfl, rfl, rfl, rfl, rfl, ⟨[], rfl⟩, ⟨[], rfl⟩⟩

theorem witness_Bit0NormalWaveform :
    AtSymbolStart (symbolStart .normal 0x7F#8 [1, 0, 1, 0, 1, 1]) .normal false [1, 0, 1, 0, 1, 1] .ok .ok :=
  ⟨⟨rfl, by decide, by decide, by decide, by decide⟩, rfl, rfl, rfl, rfl, rfl, rfl, rfl, rfl, rfl, ⟨[], rfl⟩, ⟨[], rfl⟩⟩

theorem witness_Bit1SlowWaveform :
    AtSymbolStart (symbolStart .slow 0x80#8 [1, 0, 1, 1, 0]) .slow true [1, 0, 1, 1, 0] .ok .ok :=
  ⟨⟨rfl, by decide, by decide, by decide, by decide⟩, rfl, rfl, rfl, rfl, rfl, rfl, rfl, rfl, rfl, ⟨[], rfl⟩, ⟨[], rfl⟩⟩

theorem witness_Bit0SlowWaveform :
    AtSymbolStart (symbolStart .slow 0x7F#8 [1, 0, 0, 1, 1]) .slow false [1, 0, 0, 1, 1] .ok .ok :=
  ⟨⟨rfl, by decide, by decide, by decide, by decide⟩, rfl, rfl, rfl, rfl, rfl, rfl, rfl, rfl, rfl, ⟨[], rfl⟩, ⟨[], rfl⟩⟩

/-- A write asking for its next element. -/
def fetching (words : List ElementWord) (endless ready : Bool) : State :=
  { rest with
    phase := .fetch
    rest := { words := words, endless := endless }
    items := { script := [ready], used := 0 } }

theorem witness_FetchStepTakesNextElement :
    (fetching [] false false).tickEdges.itemReadyNow = false
      ∧ (fetching [0x0FF0080#25] false true).tickEdges.itemReadyNow = true
      ∧ (fetching [0x0FF0080#25] false true).tickEdges.hostEager = false
      ∧ (fetching [0x0FF0080#25] false true).tickEdges.rest.words = [0x0FF0080#25]
      ∧ (0x0FF0080#25)[24] = false ∧ (0x1ABCDEF#25)[24] = true
      ∧ (fetching [0x1ABCDEF#25] false true).tickEdges.rest.words = [0x1ABCDEF#25]
      ∧ (fetching [] false true).tickEdges.rest.words = []
      ∧ (fetching [] false true).tickEdges.rest.endless = false
      ∧ (fetching [] true true).tickEdges.rest.endless = true := by decide

theorem witness_NewConstructsBlock :
    State.reset.phase = .uninit ∧ State.reset.owned = false
      ∧ building.tickEdges.phase = .uninit ∧ building.tickEdges.owned = true ∧ building.tickEdges.hostEager = false :=
  ⟨rfl, rfl, rfl, rfl, rfl⟩
theorem witness_NewRefusedOutsideUninit : sending.phase ≠ .uninit ∧ building.owned = true := by decide
theorem witness_WriteStartsFrame : rest.phase = .idle := rfl
theorem witness_WriteRefusedOutsideIdle : sending.phase ≠ .idle ∧ State.reset.phase ≠ .idle := by decide

theorem witness_HostCode11Refused :
    (State.tickEdges { rest with host := [.cmd 0b11#2 Stream.empty false] }).host = [.cmd 0b11#2 Stream.empty false]
      ∧ (State.tickEdges { rest with host := [.cmd 0b11#2 Stream.empty false] }).discarded = false
      ∧ (State.tickEdges { rest with host := [.cmd 0b11#2 Stream.empty false] }).busy = false
      ∧ (State.tickEdges { unbuilt with host := [.cmd 0b11#2 Stream.empty false] }).unbuilt = true
      ∧ (State.tickEdges { unbuilt with host := [.cmd 0b11#2 Stream.empty false] }).listing = []
      ∧ (State.tickEdges { building with host := [.cmd 0b11#2 Stream.empty true] }).busy = true
      ∧ (State.tickEdges { sending with host := [.cmd 0b11#2 Stream.empty true] }).busy = true := by decide

theorem witness_StepKeepsMarks : ∃ t, step rest = .next t := ⟨_, rfl⟩

theorem witness_DiscardIsNoAction :
    (State.tickEdges { rest with host := [.discard] }).host = [.discard]
      ∧ (State.tickEdges { rest with owned := false, host := [.cmd 1#2 Stream.empty false] }).owned = false := by decide

theorem witness_StepRunsDecodedOperation :
    sending.tickEdges.fetch = .op .symbol (.b 0b01#2) sending.tickEdges ∧ decode (.b 0b01#2) = .ok .bit1N
      ∧ (nextOf (exec .bit1N sending.tickEdges)).isSome = true
      ∧ (State.tickEdges { sending with step := none }).fetch
          = .op .symbol (.b 0b01#2) (State.tickEdges { sending with step := none })
      ∧ faultOf (exec .bit1N (State.tickEdges { sending with step := none })) = some (.unwrittenField .step) := by
  decide

theorem witness_PositionNamesOperation :
    rest.busy = false ∧ rest.unbuilt = false ∧ rest.discarded = false ∧ rest.host = []
      ∧ unbuilt.busy = false ∧ unbuilt.listing = [] ∧ unbuilt.discarded = false ∧ unbuilt.host = []
      ∧ (State.tickEdges { sending with host := [.cmd 1#2 Stream.empty true] }).busy = true
      ∧ (State.tickEdges { building with host := [.cmd 2#2 Stream.empty true] }).busy = true
      ∧ building.hostEager = false ∧ building.phase = .uninit ∧ building.owned = true
      ∧ State.unbuilt { unbuilt with listing := [1#2] } = true
      ∧ State.host { rest with host := [.cmd 2#2 Stream.empty false] } = [.cmd 2#2 Stream.empty false]
      ∧ State.listing { unbuilt with listing := [1#2] } = [1#2]
      ∧ aligning.hostEager = false ∧ aligning.phase = .alignTick ∧ sending.data = some 0x80#8
      ∧ inGap.gap = some 159#8 ∧ (159#8).toNat < 160
      ∧ State.gap { inGap with gap := some 160#8 } = some 160#8 := by decide

theorem witness_AlignStepLoadsGreen :
    aligning.tickEdges.phase = .alignTick ∧ aligning.tickEdges.hostEager = false
      ∧ aligning.tickEdges.g = some 0x80#8 ∧ aligning.tickEdges.waitEnds = false
      ∧ (State.tickEdges { aligning with pending := true }).waitEnds = true := by decide

theorem witness_GapStepCountsWaits :
    inGap.tickEdges.phase = .resetGap ∧ inGap.tickEdges.hostEager = false ∧ inGap.tickEdges.gap = some 159#8
      ∧ inGap.tickEdges.waitEnds = false ∧ (State.tickEdges { inGap with pending := true }).waitEnds = true
      ∧ (State.tickEdges { inGap with gap := some 0#8 }).gap = some 0#8 := by decide

theorem witness_CompletionReportsSuccess :
    (State.tickEdges { inGap with gap := some 160#8 }).gap = some 160#8
      ∧ (State.tickEdges { inGap with gap := some 160#8 }).phase = .resetGap
      ∧ (State.tickEdges { inGap with gap := some 160#8 }).hostEager = false := by decide

theorem witness_IdleBlockHolds :
    (rest.busy = false ∧ rest.unbuilt = false ∧ rest.host = []) ∧ (unbuilt.busy = false ∧ unbuilt.listing = [])
      ∧ (rest.phase = .idle ∧ ∃ t, step rest = .next t)
      ∧ ∃ t, step { rest with host := [.cmd 1#2 Stream.empty false], listing := [1#2] } = .next t :=
  ⟨by decide, by decide, ⟨rfl, _, rfl⟩, _, rfl⟩

/-- R98: an IDLE block performs no micro-operation of a listing. -/
theorem test_idle_silent : after (fun t => t.events) (step { rest with listing := [1#2] }) = some [] := by decide

theorem witness_WaitWithoutTickIsStuck :
    sending.Inv ∧ sending.phase.quiet = false ∧ sending.hostEager = false ∧ sending.waitDue = true
      ∧ sending.edgesNow = 0 ∧ sending.pending = false ∧ sending.pollFailsNow = false :=
  ⟨sending_inv, by decide⟩

theorem witness_ListingPerformsLeftToRight :
    (State.tickEdges { unbuilt with listing := [3#2] }).listing = [3#2]
      ∧ (State.tickEdges { unbuilt with listing := [3#2] }).unbuilt = true
      ∧ ¬ holdsAfter 1#2 (State.tickEdges { unbuilt with listing := [1#2] })
      ∧ holdsAfter 0#2 (State.tickEdges { unbuilt with listing := [0#2] }) := by
  unfold holdsAfter
  decide

theorem witness_StepKeepsInvariant : sending.Inv ∧ ∃ t, step sending = .next t :=
  ⟨sending_inv, _, rfl⟩

theorem witness_StepNeverStops : inGap.Inv := inGap_inv

theorem witness_StepKeepsConfiguration : ∃ t, step sending = .next t := ⟨_, rfl⟩

theorem witness_ConstructedAtMostOnce : State.reset.NewOnce ∧ ∃ t, step State.reset = .next t :=
  ⟨by unfold State.NewOnce; decide, _, rfl⟩

theorem witness_EveryWriteEndsWithDone : rest.WritesBalance ∧ ∃ t, step rest = .next t :=
  ⟨by unfold State.WritesBalance; decide, _, rfl⟩

theorem witness_NoWriteReportsFailure : inGap.NoFailure ∧ ∃ t, step inGap = .next t :=
  ⟨by unfold State.NoFailure; decide, _, rfl⟩

theorem witness_FieldsSpentAfterColor : sending.Inv ∧ sending.Spent ∧ ∃ t, step sending = .next t :=
  ⟨sending_inv, ⟨by decide, fun _ d n hd hn => by cases hd; cases hn; rfl, by decide⟩, _, rfl⟩

theorem witness_StepAddsAtMostOneEvent : ∃ t, step { sending with pending := true } = .next t := ⟨_, rfl⟩

theorem witness_OnlyPinCommandsMoveLine :
    ∃ t, step { sending with step := some 1#3 } = .next t ∧ t.line ≠ State.line { sending with step := some 1#3 } :=
  ⟨_, rfl, by decide⟩

theorem witness_GapKeepsLine : inGap.phase = .resetGap ∧ ∃ t, step inGap = .next t := ⟨rfl, _, rfl⟩

theorem witness_RunningWriteFollowsPlan :
    sending.Inv ∧ sending.phase.quiet = false ∧ sending.rest.endless = false ∧ ∃ t, step sending = .next t :=
  ⟨sending_inv, rfl, rfl, _, rfl⟩

theorem witness_WriteBeginsWithFrame :
    rest.phase = .idle ∧ rest.offer.endless = false ∧ ∃ t, exec .write rest = .next t := ⟨rfl, rfl, _, rfl⟩

/-- A write with only its completion left, and a tick source and an item source that serve two steps. -/
def nearlyDone : State :=
  { inGap with
    gap := some 160#8
    edges := { script := [1, 1], used := 0 }
    items := { script := [true, true], used := 0 } }

theorem witness_ServedWriteCompletes :
    nearlyDone.Inv ∧ nearlyDone.phase.quiet = false ∧ nearlyDone.rest.endless = false ∧ nearlyDone.host = []
      ∧ nearlyDone.Served (2 * nearlyDone.plan.length) :=
  ⟨⟨rfl, by decide, by decide, by decide, by decide⟩, rfl, rfl, rfl, ⟨[], rfl⟩, ⟨[], rfl⟩⟩

theorem witness_PinFailuresChangeNothingElse :
    sending.pinBlind = State.pinBlind { sending with line := .high, pins := { script := [.err .high], used := 3 } }
      ∧ (∃ t, step sending = .next t)
      ∧ State.pinBlind { sending with step := none } = State.pinBlind { sending with step := none, line := .high }
      ∧ ∃ f, step { sending with step := none } = .fault f :=
  ⟨rfl, ⟨_, rfl⟩, rfl, _, rfl⟩

end Sys2Proof.Tests
end

section
/-! PROOFS. The family of spec/00_scope.md: the configuration, what no step reads of it, and one poll of a
wait. -/

namespace Sys2Proof.Machine

/-! ### One poll of WAIT_TICK -/

/-- Settles O9: the three outcomes of a poll are the values of `waitEnds` and `pollFailsNow` in
`State.waitTick_eq`. -/
theorem waitTickPolls : Obligations.WaitTickPolls := by
  intro s
  have hexec : exec .waitTick s = .next s.waitTick := rfl
  have hcounts : s.tickCounts = (s.pending && (s.cfg.tickLatch || s.waiting)) := rfl
  rw [hexec, State.waitTick_eq, ← hcounts]
  refine ⟨fun hfail => ?mayFail, fun hfail => ?error, fun hfail htick => ?ready, fun hfail htick => ?notYet⟩
  case mayFail => exact (Bool.and_eq_true_iff.mp hfail).1
  case error => simp [State.waitEnds, hfail, entry]
  case ready => simp [State.waitEnds, hfail, htick, entry]
  case notYet => simp [State.waitEnds, hfail, htick]

/-! ### The configuration -/

/-- None of the ways of a step writes the configuration: a wait and a micro-operation keep it by
`State.waitTick_cfg` and `afterMicroOp_cfg`, the other updates do not name it. -/
theorem Moves.cfg_eq {u t : State} (h : Moves u t) : t.cfg = u.cfg := by
  cases h <;> simp

/-- Settles O43: neither the tick source nor what the step then does writes the configuration. -/
theorem stepKeepsConfiguration : Obligations.StepKeepsConfiguration := by
  intro s t h
  exact (step_moves h).cfg_eq.trans s.tickEdges_cfg

/-! ### The tick rate and the latencies

Every function a step is made of commutes with `State.withTiming`: one lemma per function, in the order of the
model. -/

section Timing

variable (s : State) (hz a b c d : Nat)

@[simp] theorem State.withTiming_phase : (s.withTiming hz a b c d).phase = s.phase := rfl
@[simp] theorem State.withTiming_g : (s.withTiming hz a b c d).g = s.g := rfl
@[simp] theorem State.withTiming_ch : (s.withTiming hz a b c d).ch = s.ch := rfl
@[simp] theorem State.withTiming_data : (s.withTiming hz a b c d).data = s.data := rfl
@[simp] theorem State.withTiming_bit : (s.withTiming hz a b c d).bit = s.bit := rfl
@[simp] theorem State.withTiming_step : (s.withTiming hz a b c d).step = s.step := rfl
@[simp] theorem State.withTiming_gap : (s.withTiming hz a b c d).gap = s.gap := rfl
@[simp] theorem State.withTiming_waiting : (s.withTiming hz a b c d).waiting = s.waiting := rfl
@[simp] theorem State.withTiming_rest : (s.withTiming hz a b c d).rest = s.rest := rfl
@[simp] theorem State.withTiming_host : (s.withTiming hz a b c d).host = s.host := rfl
@[simp] theorem State.withTiming_listing : (s.withTiming hz a b c d).listing = s.listing := rfl
@[simp] theorem State.withTiming_itemReadyNow :
    (s.withTiming hz a b c d).itemReadyNow = s.itemReadyNow := rfl
@[simp] theorem State.withTiming_unbuilt : (s.withTiming hz a b c d).unbuilt = s.unbuilt := rfl
@[simp] theorem State.withTiming_busy : (s.withTiming hz a b c d).busy = s.busy := rfl
@[simp] theorem State.withTiming_hostEager : (s.withTiming hz a b c d).hostEager = s.hostEager := rfl
@[simp] theorem State.withTiming_held (m : Code2) : (s.withTiming hz a b c d).held m = s.held m := rfl

@[simp] theorem mapOutcome_next (f : State → State) : mapOutcome f (.next s) = .next (f s) := rfl

/-- What the position gives, with its state changed by `f`. -/
def mapFetched (f : State → State) : Fetched → Fetched
  | .hold s => .hold (f s)
  | .finish s => .finish (f s)
  | .stop e => .stop e
  | .op o m s => .op o m (f s)

theorem State.waitTick_withTiming :
    (s.withTiming hz a b c d).waitTick = s.waitTick.withTiming hz a b c d := by
  rw [State.waitTick_eq, State.waitTick_eq]
  rfl

theorem State.microOp_withTiming (m : Code2) :
    (s.withTiming hz a b c d).microOp m = mapOutcome (State.withTiming · hz a b c d) (s.microOp m) := by
  rcases code2_cases m with rfl | rfl | rfl | rfl
  · exact congrArg Host.Outcome.next (s.waitTick_withTiming hz a b c d)
  · rfl
  · rfl
  · rfl

theorem State.startColor_withTiming :
    (s.withTiming hz a b c d).startColor = mapOutcome (State.withTiming · hz a b c d) s.startColor := by
  unfold State.startColor
  rw [State.withTiming_g]
  cases s.g <;> rfl

theorem State.countGap_withTiming :
    (s.withTiming hz a b c d).countGap = mapOutcome (State.withTiming · hz a b c d) s.countGap := by
  unfold State.countGap
  rw [State.withTiming_gap]
  cases s.gap <;> rfl

theorem State.channelByte_withTiming (n : BitVec 2) :
    (s.withTiming hz a b c d).channelByte n = s.channelByte n := rfl

theorem State.byteDone_withTiming :
    (s.withTiming hz a b c d).byteDone = mapOutcome (State.withTiming · hz a b c d) s.byteDone := by
  unfold State.byteDone
  rw [State.withTiming_ch]
  cases s.ch with
  | none => rfl
  | some n =>
    simp only [State.channelByte_withTiming]
    cases moreChannels n with
    | false => rfl
    | true => cases s.channelByte (n + 1#2) <;> rfl

theorem State.symbolDone_withTiming :
    (s.withTiming hz a b c d).symbolDone = mapOutcome (State.withTiming · hz a b c d) s.symbolDone := by
  unfold State.symbolDone
  rw [State.withTiming_data, State.withTiming_bit]
  cases s.data with
  | none => rfl
  | some v =>
    cases s.bit with
    | none => rfl
    | some n =>
      cases hn : moreBits n with
      | true => simp only [hn]; rfl
      | false =>
        simp only [hn]
        exact State.byteDone_withTiming { s with step := some 0#3, data := some (shiftByte v), bit := some 0#3 }
          hz a b c d

theorem State.encodeStep_withTiming (p : List Code2) :
    (s.withTiming hz a b c d).encodeStep p = mapOutcome (State.withTiming · hz a b c d) (s.encodeStep p) := by
  unfold State.encodeStep
  rw [State.withTiming_step]
  cases s.step with
  | none => rfl
  | some k =>
    simp only
    cases p[k.toNat]? with
    | none => rfl
    | some m =>
      simp only [State.microOp_withTiming]
      cases s.microOp m with
      | fault f => rfl
      | refused q => rfl
      | next t =>
        simp only [mapOutcome_next, State.withTiming_held, State.symbolDone_withTiming]
        rw [apply_ite (mapOutcome _), apply_ite (mapOutcome _)]
        rfl

theorem execWrite_withTiming :
    execWrite (s.withTiming hz a b c d) = mapOutcome (State.withTiming · hz a b c d) (execWrite s) := by
  unfold execWrite
  rw [apply_ite (mapOutcome _)]
  rfl

theorem execNew_withTiming :
    execNew (s.withTiming hz a b c d) = mapOutcome (State.withTiming · hz a b c d) (execNew s) := by
  unfold execNew
  rw [apply_ite (mapOutcome _)]
  rfl

theorem exec_withTiming (i : Instr) :
    exec i (s.withTiming hz a b c d) = mapOutcome (State.withTiming · hz a b c d) (exec i s) := by
  cases i with
  | waitTick => exact congrArg Host.Outcome.next (s.waitTick_withTiming hz a b c d)
  | setHigh => rfl
  | setLow => rfl
  | bit0N => exact s.encodeStep_withTiming hz a b c d pattern0N
  | bit1N => exact s.encodeStep_withTiming hz a b c d pattern1N
  | bit0S => exact s.encodeStep_withTiming hz a b c d pattern0S
  | bit1S => exact s.encodeStep_withTiming hz a b c d pattern1S
  | color r g b => rfl
  | endSeq => rfl
  | nop => rfl
  | write => exact execWrite_withTiming s hz a b c d
  | new => exact execNew_withTiming s hz a b c d

theorem State.fetchItem_withTiming :
    (s.withTiming hz a b c d).fetchItem = mapFetched (State.withTiming · hz a b c d) s.fetchItem := by
  unfold State.fetchItem
  rw [State.withTiming_itemReadyNow, State.withTiming_rest]
  cases s.itemReadyNow with
  | false => rfl
  | true =>
    cases s.rest.words with
    | cons w ws => rfl
    | nil => cases s.rest.endless <;> rfl

theorem State.fetchHost_withTiming :
    (s.withTiming hz a b c d).fetchHost = mapFetched (State.withTiming · hz a b c d) s.fetchHost := by
  unfold State.fetchHost
  rw [State.withTiming_host]
  cases s.host with
  | nil => rfl
  | cons act more =>
    cases act with
    | cmd m seq eager =>
      simp only [apply_ite (mapFetched _)]
      rfl
    | discard =>
      simp only [apply_ite (mapFetched _)]
      rfl

theorem State.fetchPhase_withTiming :
    (s.withTiming hz a b c d).fetchPhase = mapFetched (State.withTiming · hz a b c d) s.fetchPhase := by
  unfold State.fetchPhase
  rw [State.withTiming_phase, State.withTiming_data, State.withTiming_gap]
  cases s.phase with
  | uninit => rfl
  | idle => rfl
  | fetch => exact s.fetchItem_withTiming hz a b c d
  | alignTick => rfl
  | encodeByte => cases s.data <;> rfl
  | resetGap =>
    cases s.gap with
    | none => rfl
    | some n => simp only; split_ifs <;> rfl

theorem State.fetchRest_withTiming :
    (s.withTiming hz a b c d).fetchRest = mapFetched (State.withTiming · hz a b c d) s.fetchRest := by
  unfold State.fetchRest
  rw [State.withTiming_unbuilt, State.withTiming_listing, State.fetchHost_withTiming]
  cases s.unbuilt with
  | false => rfl
  | true => cases s.listing <;> rfl

theorem State.fetch_withTiming :
    (s.withTiming hz a b c d).fetch = mapFetched (State.withTiming · hz a b c d) s.fetch := by
  unfold State.fetch
  rw [State.withTiming_busy, State.withTiming_hostEager, State.fetchHost_withTiming,
    State.fetchPhase_withTiming, State.fetchRest_withTiming]
  cases s.busy with
  | false => rfl
  | true => cases s.hostEager <;> rfl

theorem State.advance_withTiming (o : Origin) (i : Instr) :
    (s.withTiming hz a b c d).advance o i = mapOutcome (State.withTiming · hz a b c d) (s.advance o i) := by
  cases o with
  | host => rfl
  | item => rfl
  | construct => rfl
  | symbol => rfl
  | listing => rfl
  | align =>
    simp only [State.advance, State.withTiming_waiting, State.startColor_withTiming]
    cases s.waiting <;> rfl
  | gap =>
    simp only [State.advance, State.withTiming_waiting, State.countGap_withTiming]
    cases s.waiting <;> rfl

theorem State.perform_withTiming (o : Origin) (m : Code) :
    (s.withTiming hz a b c d).perform o m = mapOutcome (State.withTiming · hz a b c d) (s.perform o m) := by
  unfold State.perform
  cases decode m with
  | error e => cases e <;> rfl
  | ok i =>
    simp only [exec_withTiming]
    cases exec i s with
    | next t => exact t.advance_withTiming hz a b c d o i
    | fault f => rfl
    | refused q => rfl

end Timing

/-- Settles O59: the tick source's edges, the fetch and the operation's performance each commute with a change
of the tick rate and the latencies. -/
theorem timingParametersUnread : Obligations.TimingParametersUnread := by
  intro s hz a b c d
  have hedges : (s.withTiming hz a b c d).tickEdges = s.tickEdges.withTiming hz a b c d := rfl
  unfold step
  rw [hedges, State.fetch_withTiming]
  cases s.tickEdges.fetch with
  | hold t => rfl
  | finish t => rfl
  | stop f => rfl
  | op o m t => exact t.perform_withTiming hz a b c d o m

end Sys2Proof.Machine
end

section
/-! PROOFS. The family of spec/10_state.md: the invariant of the step table and the transient fields between
colors, kept by every step. -/

namespace Sys2Proof.Machine

/-! ### The invariant, read phase by phase -/

section Position

variable {u : State}

theorem State.inRange_alignTick (hp : u.phase = .alignTick) :
    u.inRange = true ↔ u.r.isSome = true ∧ u.g.isSome = true ∧ u.b.isSome = true := by
  simp [State.inRange, hp, and_assoc]

theorem State.inRange_encodeByte (hp : u.phase = .encodeByte) :
    u.inRange = true ↔ u.r.isSome = true ∧ u.b.isSome = true ∧ u.data.isSome = true ∧ u.bit.isSome = true
      ∧ (∃ c, u.ch = some c ∧ c.toNat ≤ 2)
      ∧ ∃ k, u.step = some k ∧ k.toNat < Config.symbolLength u.cfg.profile := by
  cases hc : u.ch <;> cases hk : u.step <;> simp [State.inRange, hp, hc, hk, and_assoc]

theorem State.inRange_resetGap (hp : u.phase = .resetGap) :
    u.inRange = true ↔ ∃ n, u.gap = some n ∧ n.toNat ≤ 160 := by
  cases hg : u.gap <;> simp [State.inRange, hp, hg, Config.gapTicks]

theorem State.waitDue_encodeByte {d : Byte} {k : BitVec 3} (hp : u.phase = .encodeByte)
    (hd : u.data = some d) (hk : u.step = some k) :
    u.waitDue = ((pattern u.cfg.profile (dataBit d))[k.toNat]? == some 0#2) := by
  simp [State.waitDue, hp, hd, hk]

theorem State.waitDue_resetGap {n : BitVec 8} (hp : u.phase = .resetGap) (hg : u.gap = some n)
    (hn : n.toNat < 160) : u.waitDue = true := by
  simp [State.waitDue, hp, hg, Config.gapTicks, hn]

theorem State.waitDue_listing {c : Code2} {cs : List Code2} (hp : u.phase = .uninit) (ho : u.owned = false)
    (hl : u.listing = c :: cs) : u.waitDue = (c == 0#2) := by
  simp [State.waitDue, hp, ho, hl]

theorem symbolLength_pos (p : Profile) : 0 < Config.symbolLength p := by cases p <;> decide

/-- The step of a symbol has room for every next position (R12). -/
theorem symbolLength_le (p : Profile) : Config.symbolLength p ≤ 6 := by cases p <;> decide

@[simp] theorem afterMicroOp_inRange (c : Code2) : (afterMicroOp c u).inRange = u.inRange := by
  simp [State.inRange]

@[simp] theorem State.waitTick_inRange : u.waitTick.inRange = u.inRange := by
  simp [State.inRange]

/-- Where no wait is in progress, or only at a wait, a micro-operation that is not held leaves none. -/
theorem afterMicroOp_waiting_eq_false {c : Code2} (hh : ¬ holdsAfter c u) (hw : u.waiting = true → c = 0#2) :
    (afterMicroOp c u).waiting = false := by
  by_cases hc : c = 0#2
  · simpa [holdsAfter, hc] using hh
  · rw [afterMicroOp_waiting_of_ne hc]
    simpa [hc] using hw

end Position

/-! ### Every step keeps the invariant -/

section Moves

variable {u t : State}

/-- The fields that the phase reads stay written and in range (R12, R69). -/
theorem Moves.inRange (h : Moves u t) (hi : u.inRange = true) : t.inRange = true := by
  cases h with
  | hold | itemHold | nop | refuse => exact hi
  | discard | write | construct | color | symbolColor | complete => simp [State.inRange, *]
  | new seq eager more hs hh hp ho hl => simp [State.inRange, hp]
  | alignHold | gapHold | listingHold => simpa using hi
  | symbolHold d k c => simpa using hi
  | listing c cs hp => simp [State.inRange, hp]
  | endSeq rest hp hr => exact (State.inRange_resetGap rfl).mpr ⟨0#8, rfl, by decide⟩
  | align v hp hw hg =>
    obtain ⟨hr, -, hb⟩ := (State.inRange_alignTick hp).mp hi
    exact (State.inRange_encodeByte rfl).mpr
      ⟨by simpa using hr, by simpa using hb, rfl, rfl, ⟨0#2, rfl, by decide⟩, 0#3, rfl, symbolLength_pos _⟩
  | symbolNext d k c hp hd hk hc hh hlt =>
    obtain ⟨hr, hb, hd, hn, hch, -⟩ := (State.inRange_encodeByte hp).mp hi
    have hstep : (k + 1#3).toNat = k.toNat + 1 := by
      have := symbolLength_le u.cfg.profile
      simp only [BitVec.toNat_add, BitVec.toNat_ofNat]
      omega
    refine (State.inRange_encodeByte (by simpa using hp)).mpr
      ⟨by simpa using hr, by simpa using hb, by simpa using hd, by simpa using hn, by simpa using hch,
        k + 1#3, rfl, ?_⟩
    simpa [hstep] using hlt
  | symbolBit d k n c hp =>
    obtain ⟨hr, hb, -, -, hch, -⟩ := (State.inRange_encodeByte hp).mp hi
    exact (State.inRange_encodeByte (by simpa using hp)).mpr
      ⟨by simpa using hr, by simpa using hb, rfl, rfl, by simpa using hch, 0#3, rfl, symbolLength_pos _⟩
  | symbolByte d v k n c h hp hd hk hc hh hlast hn h7 hch hv =>
    obtain ⟨hr, hb, -, -, -, -⟩ := (State.inRange_encodeByte hp).mp hi
    have hle : (h + 1#2).toNat ≤ 2 := by
      rcases hv with ⟨rfl, -⟩ | ⟨rfl, -⟩ <;> decide
    exact (State.inRange_encodeByte (by simpa using hp)).mpr
      ⟨by simpa using hr, by simpa using hb, rfl, rfl, ⟨h + 1#2, rfl, hle⟩, 0#3, rfl, symbolLength_pos _⟩
  | gap n hp hg hlt hw =>
    refine (State.inRange_resetGap (by simpa using hp)).mpr ⟨n + 1#8, rfl, ?_⟩
    simp only [BitVec.toNat_add, BitVec.toNat_ofNat]
    omega

/-- A wait stays in progress only at a position that waits (R48): a step that moves the position ends the
wait, and a step that begins or continues one stands at a wait. -/
theorem Moves.waitDue (h : Moves u t) (hi : u.waiting = true → u.waitDue = true) :
    t.waiting = true → t.waitDue = true := by
  have hnone : u.waitDue = false → u.waiting = false := fun hd => by simpa [hd] using hi
  have hsymbol : ∀ {d : Byte} {k : BitVec 3} {c : Code2}, u.phase = .encodeByte → u.data = some d →
      u.step = some k → (pattern u.cfg.profile (dataBit d))[k.toNat]? = some c → ¬ holdsAfter c u →
      (afterMicroOp c u).waiting = false := fun hp hd hk hc hh =>
    afterMicroOp_waiting_eq_false hh fun hw => by
      simpa [State.waitDue_encodeByte hp hd hk, hc] using hi hw
  cases h with
  | hold | itemHold | nop | refuse => exact hi
  | discard more hp | write _ _ _ _ _ hp | color w rest colors hp | endSeq rest hp =>
    simp [hnone (by simp [State.waitDue, hp])]
  | construct hp ho | new _ _ _ _ _ hp ho hl => simp [hnone (by simp [State.waitDue, *])]
  | complete n hp hg heq => simp [hnone (by simp [State.waitDue, hp, hg, Config.gapTicks, heq])]
  | alignHold hp => intro; simp [State.waitDue, hp]
  | align v hp hw | gap n hp hg hlt hw => exact fun hc => nomatch hw.symm.trans hc
  | symbolHold d k c hp hd hk hc hh =>
    intro
    rw [State.waitDue_encodeByte (by simpa using hp) (by simpa using hd) (by simpa using hk)]
    simp [hc, hh.1]
  | symbolNext d k c hp hd hk hc hh | symbolBit d k n c hp hd hk hc hh
  | symbolByte d v k n c h hp hd hk hc hh | symbolColor d k n c h hp hd hk hc hh =>
    simp [hsymbol hp hd hk hc hh]
  | gapHold n hp hg hlt => exact fun _ => State.waitDue_resetGap (by simpa using hp) (by simpa using hg) hlt
  | listingHold cs hp ho hl =>
    intro
    rw [State.waitDue_listing (by simpa using hp) (by simpa using ho) (by simpa using hl)]
    rfl
  | listing c cs hp ho hl hc hh =>
    have hdone := afterMicroOp_waiting_eq_false hh fun hw => by
      simpa [State.waitDue_listing hp ho hl] using hi hw
    simp [hdone]

/-- A running write belongs to a block that owns the tick source and the line (R75): only a discard, in IDLE,
gives ownership up. -/
theorem Moves.owner (h : Moves u t) (hi : u.phase.quiet = false → u.owned = true) :
    t.phase.quiet = false → t.owned = true := by
  cases h with
  | discard more hp => simp [hp, Phase.quiet]
  | _ => simp_all [Phase.quiet]

/-- A step that leaves the block in UNINIT began there and wrote no field of `S` (R24). -/
theorem Moves.fresh (h : Moves u t) (hp : t.phase = .uninit) :
    u.phase = .uninit ∧ t.r = u.r ∧ t.g = u.g ∧ t.b = u.b ∧ t.ch = u.ch ∧ t.data = u.data ∧ t.bit = u.bit
      ∧ t.step = u.step ∧ t.gap = u.gap := by
  cases h <;> simp_all

/-- A step leaves the listing as it is or performs its head (R44). -/
theorem Moves.listing_suffix (h : Moves u t) : t.listing <:+ u.listing := by
  cases h with
  | listing c cs hp ho hl => exact hl ▸ List.suffix_cons c cs
  | _ => simp

end Moves

/-- The edges of the tick source touch nothing that the invariant reads. -/
theorem State.Inv.tickEdges {s : State} (h : s.Inv) : s.tickEdges.Inv :=
  ⟨h.range, h.wait, h.owner, h.fresh, h.codes⟩

/-- Every way of a step keeps the invariant, part by part. -/
theorem Moves.inv {u t : State} (h : Moves u t) (hi : u.Inv) : t.Inv where
  range := h.inRange hi.range
  wait := h.waitDue hi.wait
  owner := h.owner hi.owner
  fresh hp := by
    obtain ⟨hu, hr, hg, hb, hch, hdata, hbit, hstep, hgap⟩ := h.fresh hp
    rw [hr, hg, hb, hch, hdata, hbit, hstep, hgap]
    exact hi.fresh hu
  codes c hc := hi.codes c (h.listing_suffix.mem hc)

/-- Settles O41: the tick source touches nothing the invariant reads, and each way of a step keeps it. -/
theorem stepKeepsInvariant : Obligations.StepKeepsInvariant := by
  intro s t hi h
  exact (step_moves h).inv hi.tickEdges

/-! ### The transient fields between colors and between writes -/

section Spent

variable {u t : State}

/-- Each shift brings one more zero into the low bits of the byte (R58). -/
theorem two_pow_dvd_shiftByte {d : Byte} {n : Nat} (hn : n ≤ 7) (hd : 2 ^ n ∣ d.toNat) :
    2 ^ (n + 1) ∣ (shiftByte d).toNat := by
  have hshift : (shiftByte d).toNat = d.toNat * 2 % 2 ^ 8 := by
    simp [shiftByte, BitVec.toNat_shiftLeft, Nat.shiftLeft_eq]
  rw [hshift, Nat.dvd_mod_iff (pow_dvd_pow 2 (by omega)), pow_succ]
  exact Nat.mul_dvd_mul_right hd 2

/-- Outside the byte loop no step writes a field of the loop. -/
theorem Moves.byteFields_eq (h : Moves u t) (hu : u.phase ≠ .encodeByte) (ht : t.phase ≠ .encodeByte) :
    t.ch = u.ch ∧ t.data = u.data ∧ t.bit = u.bit ∧ t.step = u.step := by
  cases h <;> simp_all

/-- The byte loop is left only at the end of the last byte of a color (R63). -/
theorem Moves.leavesByteLoop (h : Moves u t) (hu : u.phase = .encodeByte) (ht : t.phase ≠ .encodeByte) :
    ∃ (d : Byte) (c : BitVec 2), u.data = some d ∧ u.bit = some 7#3 ∧ u.ch = some c ∧ 2 ≤ c.toNat
      ∧ t.ch = some c ∧ t.data = some (shiftByte d) ∧ t.bit = some 0#3 ∧ t.step = some 0#3 := by
  cases h with
  | symbolColor d k n c h hp hd hk hc hh hlast hn h7 hch hge =>
    exact ⟨d, h, hd, h7 ▸ hn, hch, hge, by simpa using hch, rfl, rfl, rfl⟩
  | _ => simp_all

/-- Inside the byte loop a step keeps the byte, or begins one, or shifts it by the bit it counts (R62, R63). -/
theorem Moves.byteAndBit (h : Moves u t) (ht : t.phase = .encodeByte) :
    (u.phase = .encodeByte ∧ t.data = u.data ∧ t.bit = u.bit) ∨ t.bit = some 0#3
      ∨ ∃ (d : Byte) (n : BitVec 3), u.phase = .encodeByte ∧ u.data = some d ∧ u.bit = some n ∧ n.toNat < 7
        ∧ t.data = some (shiftByte d) ∧ t.bit = some (n + 1#3) := by
  cases h with
  | align | symbolByte => exact .inr (.inl rfl)
  | symbolBit d k n c hp hd hk hc hh hlast hn hlt => exact .inr (.inr ⟨d, n, hp, hd, hn, hlt, rfl, rfl⟩)
  | _ => simp_all

/-- Outside the reset gap no step writes the gap counter, and the gap is left at 160 (R64, R65). -/
theorem Moves.gap_eq (h : Moves u t) (ht : t.phase ≠ .resetGap) :
    (u.phase ≠ .resetGap ∧ t.gap = u.gap) ∨ t.gap = some 160#8 := by
  cases h with
  | complete n hp hg hn => exact .inr (hg.trans (congrArg some (BitVec.eq_of_toNat_eq hn)))
  | _ => simp_all

/-- Every way of a step inside the ranges of R12 keeps the transient fields as R24 says. -/
theorem Moves.spent (h : Moves u t) (hr : u.inRange = true) (hs : u.Spent) : t.Spent := by
  obtain ⟨hout, hin, hgap⟩ := hs
  refine ⟨fun ht => ?out, fun ht d' n' hd' hn' => ?inside, fun ht => ?gap⟩
  case out =>
    by_cases hu : u.phase = .encodeByte
    · obtain ⟨d, c, hd, hbit, hc, hge, htc, htd, htb, hts⟩ := h.leavesByteLoop hu ht
      have hc2 : c = 2#2 := by
        obtain ⟨-, -, -, -, ⟨c', hc', hle⟩, -⟩ := (State.inRange_encodeByte hu).mp hr
        obtain rfl : c = c' := Option.some.inj (hc.symm.trans hc')
        exact BitVec.eq_of_toNat_eq (le_antisymm hle hge)
      have hzero : shiftByte d = 0#8 := by
        have hdvd := two_pow_dvd_shiftByte le_rfl (Nat.dvd_of_mod_eq_zero (hin hu d 7#3 hd hbit))
        exact BitVec.eq_of_toNat_eq (Nat.eq_zero_of_dvd_of_lt hdvd (shiftByte d).isLt)
      exact .inr ⟨hc2 ▸ htc, hzero ▸ htd, htb, hts⟩
    · obtain ⟨hc, hd, hb, hk⟩ := h.byteFields_eq hu ht
      rw [hc, hd, hb, hk]
      exact hout hu
  case inside =>
    rcases h.byteAndBit ht with ⟨hu, hd, hb⟩ | hb | ⟨d, n, hu, hd, hb, hlt, htd, htb⟩
    · exact hin hu d' n' (hd ▸ hd') (hb ▸ hn')
    · obtain rfl : 0#3 = n' := Option.some.inj (hb.symm.trans hn')
      exact Nat.mod_one _
    · obtain rfl : shiftByte d = d' := Option.some.inj (htd.symm.trans hd')
      obtain rfl : n + 1#3 = n' := Option.some.inj (htb.symm.trans hn')
      have hsucc : (n + 1#3).toNat = n.toNat + 1 := by
        simp only [BitVec.toNat_add, BitVec.toNat_ofNat]
        omega
      rw [hsucc]
      exact Nat.mod_eq_zero_of_dvd
        (two_pow_dvd_shiftByte hlt.le (Nat.dvd_of_mod_eq_zero (hin hu d n hd hb)))
  case gap =>
    rcases h.gap_eq ht with ⟨hu, hg⟩ | hg
    · rw [hg]
      exact hgap hu
    · exact .inr hg

end Spent

/-- Settles O47: the tick source writes no transient field, and each way of a step leaves them as R24 says. -/
theorem fieldsSpentAfterColor : Obligations.FieldsSpentAfterColor := by
  intro s t hi hs h
  have hedges : s.tickEdges.Spent := hs
  exact (step_moves h).spent hi.tickEdges.range hedges

end Sys2Proof.Machine
end

section
/-! PROOFS. The family of spec/10_state.md: what no step learns of its pin commands (R47, R86).

Every function of a step but the pin command itself commutes with `State.pinBlind`, one lemma per function. A
pin command seen through `State.pinBlind` is one record of the trace, whatever it was answered. -/

namespace Sys2Proof.Machine

section PinBlind

variable (s : State)

@[simp] theorem State.pinBlind_g : s.pinBlind.g = s.g := rfl
@[simp] theorem State.pinBlind_ch : s.pinBlind.ch = s.ch := rfl
@[simp] theorem State.pinBlind_data : s.pinBlind.data = s.data := rfl
@[simp] theorem State.pinBlind_bit : s.pinBlind.bit = s.bit := rfl
@[simp] theorem State.pinBlind_gap : s.pinBlind.gap = s.gap := rfl
@[simp] theorem State.pinBlind_phase : s.pinBlind.phase = s.phase := rfl
@[simp] theorem State.pinBlind_waiting : s.pinBlind.waiting = s.waiting := rfl
@[simp] theorem State.pinBlind_rest : s.pinBlind.rest = s.rest := rfl
@[simp] theorem State.pinBlind_host : s.pinBlind.host = s.host := rfl
@[simp] theorem State.pinBlind_listing : s.pinBlind.listing = s.listing := rfl
@[simp] theorem State.pinBlind_itemReadyNow : s.pinBlind.itemReadyNow = s.itemReadyNow := rfl
@[simp] theorem State.pinBlind_unbuilt : s.pinBlind.unbuilt = s.unbuilt := rfl
@[simp] theorem State.pinBlind_busy : s.pinBlind.busy = s.busy := rfl
@[simp] theorem State.pinBlind_hostEager : s.pinBlind.hostEager = s.hostEager := rfl

/-! ### What is recorded -/

theorem State.record_pinBlind (e : Event) : (s.record e).pinBlind = s.pinBlind.record (pinErased e) := by
  simp [State.pinBlind, State.record]

/-- Whatever a pin command is answered, it is one record and nothing else (R47). -/
theorem State.pinSet_pinBlind (l : Level) : (s.pinSet l).pinBlind = s.pinBlind.record (.pin l .ok) :=
  State.record_pinBlind _ _

theorem State.waitTick_pinBlind : s.waitTick.pinBlind = s.pinBlind.waitTick := by
  have hends : s.pinBlind.waitEnds = s.waitEnds := rfl
  have hfails : s.pinBlind.pollFailsNow = s.pollFailsNow := rfl
  have hcounts : s.pinBlind.tickCounts = s.tickCounts := rfl
  rw [State.waitTick_eq, State.waitTick_eq, hends, hfails, hcounts]
  cases s.waitEnds with
  | false => rfl
  | true => simp [State.pinBlind, pinErased]

/-! ### The updates of the step table -/

theorem State.startColor_pinBlind : s.pinBlind.startColor = mapOutcome State.pinBlind s.startColor := by
  unfold State.startColor
  rw [State.pinBlind_g]
  cases s.g <;> rfl

theorem State.countGap_pinBlind : s.pinBlind.countGap = mapOutcome State.pinBlind s.countGap := by
  unfold State.countGap
  rw [State.pinBlind_gap]
  cases s.gap <;> rfl

theorem State.byteDone_pinBlind : s.pinBlind.byteDone = mapOutcome State.pinBlind s.byteDone := by
  have hbyte : ∀ c, s.pinBlind.channelByte c = s.channelByte c := fun _ => rfl
  unfold State.byteDone
  rw [State.pinBlind_ch]
  cases s.ch with
  | none => rfl
  | some c =>
    simp only [hbyte]
    cases moreChannels c with
    | false => rfl
    | true => cases s.channelByte (c + 1#2) <;> rfl

theorem State.symbolDone_pinBlind : s.pinBlind.symbolDone = mapOutcome State.pinBlind s.symbolDone := by
  unfold State.symbolDone
  rw [State.pinBlind_data, State.pinBlind_bit]
  cases s.data with
  | none => rfl
  | some d =>
    cases s.bit with
    | none => rfl
    | some n =>
      cases hn : moreBits n with
      | true => simp only [hn]; rfl
      | false =>
        simp only [hn]
        exact State.byteDone_pinBlind { s with step := some 0#3, data := some (shiftByte d), bit := some 0#3 }

theorem State.advance_pinBlind (o : Origin) (i : Instr) :
    s.pinBlind.advance o i = mapOutcome State.pinBlind (s.advance o i) := by
  cases o with
  | host | item | construct | symbol | listing => rfl
  | align =>
    simp only [State.advance, State.pinBlind_waiting, State.startColor_pinBlind]
    cases s.waiting <;> rfl
  | gap =>
    simp only [State.advance, State.pinBlind_waiting, State.countGap_pinBlind]
    cases s.waiting <;> rfl

/-! ### What the position names -/

theorem State.fetchItem_pinBlind : s.pinBlind.fetchItem = mapFetched State.pinBlind s.fetchItem := by
  unfold State.fetchItem
  rw [State.pinBlind_itemReadyNow, State.pinBlind_rest]
  cases s.itemReadyNow with
  | false => rfl
  | true =>
    cases s.rest.words with
    | cons w ws => rfl
    | nil => cases s.rest.endless <;> rfl

theorem State.fetchHost_pinBlind : s.pinBlind.fetchHost = mapFetched State.pinBlind s.fetchHost := by
  unfold State.fetchHost
  rw [State.pinBlind_host]
  cases s.host with
  | nil => rfl
  | cons act more => cases act <;> (simp only [apply_ite (mapFetched _)]; rfl)

theorem State.fetchPhase_pinBlind : s.pinBlind.fetchPhase = mapFetched State.pinBlind s.fetchPhase := by
  unfold State.fetchPhase
  rw [State.pinBlind_phase, State.pinBlind_data, State.pinBlind_gap]
  cases s.phase with
  | uninit | idle | alignTick => rfl
  | fetch => exact s.fetchItem_pinBlind
  | encodeByte => cases s.data <;> rfl
  | resetGap =>
    cases s.gap with
    | none => rfl
    | some n => simp only; split_ifs <;> rfl

theorem State.fetchRest_pinBlind : s.pinBlind.fetchRest = mapFetched State.pinBlind s.fetchRest := by
  unfold State.fetchRest
  rw [State.pinBlind_unbuilt, State.pinBlind_listing, State.fetchHost_pinBlind]
  cases s.unbuilt with
  | false => rfl
  | true => cases s.listing <;> rfl

theorem State.fetch_pinBlind : s.pinBlind.fetch = mapFetched State.pinBlind s.fetch := by
  unfold State.fetch
  rw [State.pinBlind_busy, State.pinBlind_hostEager, State.fetchHost_pinBlind, State.fetchPhase_pinBlind,
    State.fetchRest_pinBlind]
  cases s.busy with
  | false => rfl
  | true => cases s.hostEager <;> rfl

end PinBlind

/-! ### Two states that differ only in what the pin did -/

/-- Two outcomes of the same kind, whose states differ only in what the pin did. -/
inductive PinAlike :
    Host.Outcome State Fault Refusal → Host.Outcome State Fault Refusal → Prop where
  | next {t t' : State} : t.pinBlind = t'.pinBlind → PinAlike (.next t) (.next t')
  | fault (f : Fault) : PinAlike (.fault f) (.fault f)
  | refused (q : Refusal) : PinAlike (.refused q) (.refused q)

theorem PinAlike.of_next {t : State} {o : Host.Outcome State Fault Refusal} (h : PinAlike (.next t) o) :
    ∃ t', o = .next t' ∧ t'.pinBlind = t.pinBlind := by
  cases h with
  | next ht => exact ⟨_, rfl, ht.symm⟩

theorem PinAlike.of_fault {f : Fault} {o : Host.Outcome State Fault Refusal} (h : PinAlike (.fault f) o) :
    o = .fault f := by
  cases h
  rfl

theorem pinAlike_of_mapOutcome_eq {o o' : Host.Outcome State Fault Refusal}
    (h : mapOutcome State.pinBlind o = mapOutcome State.pinBlind o') : PinAlike o o' := by
  cases o <;> cases o' <;> simp only [mapOutcome, reduceCtorEq, Host.Outcome.next.injEq,
    Host.Outcome.fault.injEq, Host.Outcome.refused.injEq] at h
  · exact .next h
  · exact h ▸ .fault _
  · exact h ▸ .refused _

/-- A function that commutes with `State.pinBlind` cannot tell two such states apart. -/
theorem pinAlike_of_commutes {F : State → Host.Outcome State Fault Refusal}
    (hF : ∀ s, F s.pinBlind = mapOutcome State.pinBlind (F s)) {s s' : State} (h : s.pinBlind = s'.pinBlind) :
    PinAlike (F s) (F s') :=
  pinAlike_of_mapOutcome_eq (by rw [← hF, ← hF, h])

section Alike

variable {s s' : State} (h : s.pinBlind = s'.pinBlind)
include h

theorem record_alike (e : Event) : (s.record e).pinBlind = (s'.record e).pinBlind := by
  rw [State.record_pinBlind, State.record_pinBlind, h]

theorem afterMicroOp_alike (c : Code2) : (afterMicroOp c s).pinBlind = (afterMicroOp c s').pinBlind := by
  unfold afterMicroOp
  split_ifs
  · rw [State.waitTick_pinBlind, State.waitTick_pinBlind, h]
  · rw [State.pinSet_pinBlind, State.pinSet_pinBlind, h]
  · rw [State.pinSet_pinBlind, State.pinSet_pinBlind, h]

theorem encodeStep_alike (p : List Code2) : PinAlike (s.encodeStep p) (s'.encodeStep p) := by
  have hstep : s.step = s'.step := (congrArg State.step h :)
  cases hk : s'.step with
  | none =>
    simp only [State.encodeStep, hstep, hk]
    exact .fault _
  | some k =>
    cases hc : p[k.toNat]? with
    | none =>
      simp only [State.encodeStep, hstep, hk, hc]
      exact .fault _
    | some c =>
      by_cases h3 : c = 3#2
      · simp only [State.encodeStep, hstep, hk, hc, h3, State.microOp_reserved]
        exact .fault _
      · have ha := afterMicroOp_alike h c
        have hheld : (afterMicroOp c s).held c = (afterMicroOp c s').held c :=
          (congrArg (State.held · c) ha :)
        rw [s.encodeStep_eq p (hstep.trans hk) hc h3, s'.encodeStep_eq p hk hc h3, hheld]
        split_ifs
        · exact .next ha
        · exact .next (congrArg (fun t : State => { t with step := some (k + 1#3) }) ha)
        · exact pinAlike_of_commutes State.symbolDone_pinBlind ha

theorem exec_alike (i : Instr) : PinAlike (exec i s) (exec i s') := by
  cases i with
  | waitTick => exact .next (afterMicroOp_alike h 0#2)
  | setHigh => exact .next (afterMicroOp_alike h 1#2)
  | setLow => exact .next (afterMicroOp_alike h 2#2)
  | bit0N | bit1N | bit0S | bit1S => exact encodeStep_alike h _
  | color r g b =>
    exact .next (congrArg (fun t : State => { t.latchColor r g b with phase := .alignTick })
      (record_alike h (.fetch (.color r g b))))
  | endSeq =>
    exact .next (congrArg (fun t : State => { t with gap := some 0#8, phase := .resetGap })
      (record_alike h (.fetch .endSeq)))
  | nop => exact .next h
  | write =>
    have hp : s.phase = s'.phase := (congrArg State.phase h :)
    have ho : s.offer = s'.offer := (congrArg State.offer h :)
    simp only [exec, execWrite, hp, ho]
    split_ifs
    · exact .next (congrArg (fun t : State => { t with rest := s'.offer, phase := .fetch })
        (record_alike h .cmdWrite))
    · exact .next (congrArg (State.refuse · .refusedWrite) h)
  | new =>
    have hn : s.unbuilt = s'.unbuilt := (congrArg State.unbuilt h :)
    simp only [exec, execNew, hn]
    split_ifs
    · exact .next (record_alike (congrArg (fun t : State => { t with owned := true }) h) .new)
    · exact .next (congrArg (State.refuse · .refusedNew) h)

theorem perform_alike (o : Origin) (c : Code) : PinAlike (s.perform o c) (s'.perform o c) := by
  unfold State.perform
  cases decode c with
  | error e =>
    cases e with
    | reservedMicroop => exact .fault _
    | refusedHostCode => exact .next (congrArg (State.refuse · .refusedHostCode) h)
  | ok i =>
    have he := exec_alike h i
    simp only
    generalize exec i s = x, exec i s' = x' at he
    cases he with
    | next ht => exact pinAlike_of_commutes (F := (State.advance · o i)) (State.advance_pinBlind · o i) ht
    | fault f => exact .fault f
    | refused q => exact .refused q

theorem step_alike : PinAlike (step s) (step s') := by
  have hf : mapFetched State.pinBlind s.tickEdges.fetch = mapFetched State.pinBlind s'.tickEdges.fetch := by
    rw [← State.fetch_pinBlind, ← State.fetch_pinBlind]
    exact congrArg (fun t : State => t.tickEdges.fetch) h
  unfold step
  generalize s.tickEdges.fetch = x, s'.tickEdges.fetch = x' at hf
  cases x <;> cases x' <;> simp only [mapFetched, reduceCtorEq, Fetched.hold.injEq, Fetched.finish.injEq,
    Fetched.stop.injEq, Fetched.op.injEq] at hf
  case hold.hold t t' => exact .next hf
  case finish.finish t t' =>
    exact .next (congrArg (fun t : State => { t with phase := .idle }) (record_alike hf (.done .ok)))
  case stop.stop f f' => exact hf ▸ .fault f
  case op.op o c t o' c' t' =>
    obtain ⟨rfl, rfl, ht⟩ := hf
    exact perform_alike ht o c

end Alike

/-- Settles O58: the steps of two such states are alike, so a next state answers a next state and a fault the
same fault. -/
theorem pinFailuresChangeNothingElse : Obligations.PinFailuresChangeNothingElse := by
  intro s s' h
  have halike := step_alike h
  exact ⟨fun t ht => (ht ▸ halike).of_next, fun f hf => (hf ▸ halike).of_fault⟩

end Sys2Proof.Machine
end

section
/-! PROOFS. The family of spec/10_state.md: the trace and the line, the tick source, what a step performs and
what the position names, and the reset state. -/

namespace Sys2Proof.Machine

/-! ### The trace and the line -/

/-- Settles O49: each way of a step to change the trace is no event, or one with the stamps after it. -/
theorem stepAddsAtMostOneEvent : Obligations.StepAddsAtMostOneEvent := by
  intro s t h
  cases step_logMove h with
  | silent hlog => exact .inl hlog
  | micro c ev hc hlog => exact .inr ⟨ev, hlog⟩
  | write hlog => exact .inr ⟨.cmdWrite, hlog⟩
  | item e hlog => exact .inr ⟨.fetch e, hlog⟩
  | done hlog => exact .inr ⟨.done .ok, hlog⟩
  | new hlog => exact .inr ⟨.new, hlog⟩

/-- Settles O50: of the ways of a step to change the trace, only a micro-operation that records a PIN moves the
line. -/
theorem onlyPinCommandsMoveLine : Obligations.OnlyPinCommandsMoveLine := by
  intro s t h hne
  cases step_logMove h with
  | micro c ev hc hlog hshape hline =>
    obtain ⟨how, -, hkeep⟩ | ⟨level, a, rfl, hok⟩ := hline
    · exact absurd hkeep hne
    · exact ⟨[], level, a, by simpa using hlog, hok⟩
  | silent _ hline | write _ hline | item _ _ hline | done _ hline | new _ hline => exact absurd hline hne

/-! ### The tick source -/

/-- Settles O8: the action of the tick source, as the model defines it, writes these three fields. -/
theorem tickEdgesSetPending : Obligations.TickEdgesSetPending := fun _ => rfl

/-! ### Where a symbol stops, and what a step performs -/

/-- The meaning of each symbol is the ENCODE_BYTE step with the pattern R40 lists for it. -/
theorem exec_of_mem_symbolTable {i : Instr} {p : List Code2} (h : (i, p) ∈ symbolTable) (s : State) :
    exec i s = s.encodeStep p := by
  simp only [symbolTable, List.mem_cons, Prod.mk.injEq, List.not_mem_nil, or_false] at h
  obtain ⟨rfl, rfl⟩ | ⟨rfl, rfl⟩ | ⟨rfl, rfl⟩ | ⟨rfl, rfl⟩ := h <;> rfl

/-- Settles O16: the two stops are the first two reads of the ENCODE_BYTE step, `S.step` and `P[S.step]`. -/
theorem symbolStopsOffItsPattern : Obligations.SymbolStopsOffItsPattern := by
  intro i p hmem s
  rw [exec_of_mem_symbolTable hmem]
  refine ⟨fun hnone => ?_, fun k hk hlen => ?_⟩
  · simp [State.encodeStep, hnone]
  · simp [State.encodeStep, hk, List.getElem?_eq_none hlen]

theorem State.byteDone_ne_refused (s : State) (q : Refusal) : s.byteDone ≠ .refused q := by
  unfold State.byteDone
  cases s.ch with
  | none => nofun
  | some c =>
    cases hc : moreChannels c with
    | false => simp [hc]
    | true => cases hv : s.channelByte (c + 1#2) <;> simp [hc, hv]

theorem State.symbolDone_ne_refused (s : State) (q : Refusal) : s.symbolDone ≠ .refused q := by
  unfold State.symbolDone
  cases s.data with
  | none => nofun
  | some d =>
    cases s.bit with
    | none => nofun
    | some n =>
      cases hn : moreBits n with
      | true => simp [hn]
      | false => simpa [hn] using State.byteDone_ne_refused _ q

theorem State.encodeStep_ne_refused (s : State) (p : List Code2) (q : Refusal) : s.encodeStep p ≠ .refused q := by
  cases hk : s.step with
  | none => simp [State.encodeStep, hk]
  | some k =>
    cases hc : p[k.toNat]? with
    | none => simp [State.encodeStep, hk, hc]
    | some c =>
      by_cases h3 : c = 3#2
      · simp [State.encodeStep, hk, hc, h3, State.microOp_reserved]
      · rw [s.encodeStep_eq p hk hc h3]
        split_ifs
        · nofun
        · nofun
        · exact State.symbolDone_ne_refused _ q

/-- Every operation has a meaning. -/
theorem exec_ne_refused (i : Instr) (s : State) (q : Refusal) : exec i s ≠ .refused q := by
  cases i with
  | bit0N | bit1N | bit0S | bit1S => exact s.encodeStep_ne_refused _ q
  | waitTick | setHigh | setLow | color | endSeq | nop => nofun
  | write =>
    simp only [exec, execWrite]
    split_ifs <;> nofun
  | new =>
    simp only [exec, execNew]
    split_ifs <;> nofun

/-- Settles O31: `step` performs what it fetches, and `perform` is `exec` of the decoded operation followed by
`advance`. -/
theorem stepRunsDecodedOperation : Obligations.StepRunsDecodedOperation := by
  intro s u o c i hfetch hdecode
  have hstep : step s = u.perform o c := by simp [step, hfetch]
  rw [hstep]
  refine ⟨fun t ht => ?_, fun f hf => ?_, fun q => exec_ne_refused i u q⟩
  · simp [State.perform, hdecode, ht]
  · simp [State.perform, hdecode, hf]

/-! ### What the position names -/

section Fetch

variable {u : State}

/-- With no command in progress, and no listing left before construction, the host port is served. -/
theorem State.fetch_of_not_busy (hb : u.busy = false) (hl : u.unbuilt = true → u.listing = []) :
    u.fetch = u.fetchHost := by
  rcases u.fetch_cases with ⟨hn, c, cs, hcons, -⟩ | ⟨-, hf⟩ | ⟨hbusy, -⟩
  · exact absurd (hl hn) (by simp [hcons])
  · exact hf
  · exact absurd hbusy (by simp [hb])

/-- An eager command is served first while a command is in progress (D10). -/
theorem State.fetch_of_eager (hb : u.busy = true) (he : u.hostEager = true) : u.fetch = u.fetchHost := by
  simp [State.fetch, hb, he]

/-- The command in progress goes on when the host presents none eagerly. -/
theorem State.fetch_of_busy (hb : u.busy = true) (he : u.hostEager = false) : u.fetch = u.fetchPhase := by
  simp [State.fetch, hb, he]

theorem State.fetch_of_writing (hq : u.phase.quiet = false) (he : u.hostEager = false) :
    u.fetch = u.fetchPhase :=
  State.fetch_of_busy (u.busy_iff.mpr (.inl hq)) he

theorem State.not_idle_of_busy (hb : u.busy = true) : u.phase ≠ .idle := by
  intro hp
  simp [u.busy_iff, hp, Phase.quiet] at hb

/-- A block with a command in progress has not been discarded (R83). -/
theorem State.discarded_of_busy (hb : u.busy = true) : u.discarded = false := by
  simp [State.discarded, State.not_idle_of_busy hb]

theorem State.unbuilt_of_busy (hb : u.busy = true) : u.unbuilt = false := by
  cases hn : u.unbuilt with
  | false => rfl
  | true => simp [State.busy_of_unbuilt hn] at hb

/-- The step of a host command is the command's `exec`: the position has no update of its own. -/
theorem step_of_fetch_host {s : State} {c : Code2} {seq : Stream} {more : List HostAct} {i : Instr}
    (hs : s.tickEdges = u) (hf : u.fetch = .op .host (.h c) { u with host := more, offer := seq })
    (hd : decode (.h c) = .ok i) : step s = exec i { u with host := more, offer := seq } := by
  have hstep : step s = State.perform { u with host := more, offer := seq } .host (.h c) := by
    simp only [step, hs, hf]
  rw [hstep]
  simp only [State.perform, hd]
  cases exec i { u with host := more, offer := seq } <;> rfl

end Fetch

theorem execWrite_refused {s : State} (hp : s.phase ≠ .idle) :
    exec .write s = .next (s.refuse .refusedWrite) := if_neg hp

theorem execNew_refused {s : State} (hn : s.unbuilt = false) :
    exec .new s = .next (s.refuse .refusedNew) := by
  simp [exec, execNew, hn]

/-- Settles O32: `State.fetch` is one of `fetchHost` and `fetchPhase`, by whether a command is in progress and
whether the host presents another eagerly; a command served in progress finds a block that is neither IDLE
nor unbuilt. -/
theorem positionNamesOperation : Obligations.PositionNamesOperation := by
  intro u
  refine ⟨fun hb hl hd c seq eager more hh => ?rest, fun hn c cs hl => ?listing, fun hb hl hh => ?hold,
    fun hb c seq more hh => ?eager, fun he hp ho => ?construct, fun he hp => ?align, fun he hp d hd => ?symbol,
    fun he hp n hg hlt => ?gap, fun he hp hg => ?finish⟩
  case rest => rw [State.fetch_of_not_busy hb hl, State.fetchHost_cmd hh hd]
  case listing => simp [State.fetch, State.busy_of_unbuilt hn, State.fetchRest, hn, hl]
  case hold => rw [State.fetch_of_not_busy hb hl, State.fetchHost_hold (.inl hh)]
  case eager =>
    have hf : u.fetch = .op .host (.h c) { u with host := more, offer := seq } := by
      rw [State.fetch_of_eager hb (by simp [State.hostEager, hh]),
        State.fetchHost_cmd hh (State.discarded_of_busy hb)]
    refine ⟨hf, fun s hs => ⟨?_, ?_, ?_⟩⟩
    · rintro rfl
      exact step_of_fetch_host hs hf rfl
    · rintro rfl
      exact (step_of_fetch_host hs hf rfl).trans (execWrite_refused (State.not_idle_of_busy hb))
    · rintro rfl
      exact (step_of_fetch_host hs hf rfl).trans (execNew_refused (State.unbuilt_of_busy hb))
  case construct =>
    rw [State.fetch_of_busy (u.busy_iff.mpr (.inr ⟨hp, ho⟩)) he]
    simp only [State.fetchPhase, hp]
  case align =>
    rw [State.fetch_of_writing (by rw [hp]; rfl) he]
    simp only [State.fetchPhase, hp]
  case symbol =>
    rw [State.fetch_of_writing (by rw [hp]; rfl) he]
    simp only [State.fetchPhase, hp, hd, State.symbolNow, dataBit]
  case gap =>
    rw [State.fetch_of_writing (by rw [hp]; rfl) he]
    simp only [State.fetchPhase, hp, hg, Config.gapTicks, hlt, if_true]
  case finish =>
    rw [State.fetch_of_writing (by rw [hp]; rfl) he]
    simp [State.fetchPhase, hp, hg, Config.gapTicks]

/-! ### The reset state -/

/-- Settles O40: the fields of the reset state and of its configuration, as they are written there. -/
theorem resetIsUnconstructed : Obligations.ResetIsUnconstructed :=
  ⟨rfl, rfl, rfl, rfl, rfl, rfl, rfl, rfl, rfl, rfl, rfl, rfl, rfl⟩

/-- At reset nothing is written, in progress, owned or listed. -/
theorem reset_inv : State.reset.Inv where
  range := rfl
  wait := nofun
  owner := nofun
  fresh _ := ⟨rfl, rfl, rfl, rfl, rfl, rfl, rfl, rfl⟩
  codes := nofun

/-- At reset no transient field has been written. -/
theorem reset_spent : State.reset.Spent :=
  ⟨fun _ => .inl ⟨rfl, rfl, rfl, rfl⟩, nofun, fun _ => .inl rfl⟩

/-- Settles O48: beside the fields, the trace is empty, so every count of events is 0. -/
theorem resetMeetsInvariants : Obligations.ResetMeetsInvariants :=
  ⟨reset_inv, rfl, rfl, nofun, reset_spent⟩

end Sys2Proof.Machine
end

section
/-! PROOFS. The family of spec/20_memory.md: the two steps of a construction. -/

namespace Sys2Proof.Machine

/-- A block not yet built accepts NEW (R76). -/
theorem execNew_accepted {s : State} (hn : s.unbuilt = true) :
    exec .new s = .next (State.record { s with owned := true } .new) := by
  simp [exec, execNew, hn]

/-- The step of a block inside NEW is one SET_LOW, after which the block is IDLE (R76, R88). -/
theorem step_of_constructing {s u : State} (hu : s.tickEdges = u) (hp : u.phase = .uninit)
    (ho : u.owned = true) (he : u.hostEager = false) :
    step s = .next { u.pinSet .low with phase := .idle } := by
  obtain ⟨-, -, -, -, hconstruct, -⟩ := positionNamesOperation u
  unfold step
  rw [hu, hconstruct he hp ho]
  rfl

/-- Settles O24: NEW is accepted in a block not yet built, and the step that follows it is one SET_LOW. -/
theorem newConstructsBlock : Obligations.NewConstructsBlock :=
  ⟨fun s hp ho => execNew_accepted (s.unbuilt_iff.mpr ⟨hp, ho⟩),
    fun _ _ hu hp ho he => step_of_constructing hu hp ho he⟩

end Sys2Proof.Machine
end

section
/-! PROOFS. The family of spec/30_encoding.md: the decoder and the encoder (R35 to R38, R42). -/

namespace Sys2Proof.Machine

/-! ### The fields of a format S word -/

section Bytes

variable {m : Nat} (y : BitVec m) (g b : Byte)

theorem lowByte_append : (y ++ g ++ b).extractLsb' 0 8 = b := BitVec.extractLsb'_append_eq_right

theorem middleByte_append : (y ++ g ++ b).extractLsb' 8 8 = g := by
  rw [BitVec.extractLsb'_append_eq_of_le (by omega)]
  exact BitVec.extractLsb'_append_eq_right

theorem upperByte_append : (y ++ g ++ b).extractLsb' 16 8 = y.extractLsb' 0 8 := by
  rw [BitVec.extractLsb'_append_eq_of_le (by omega), BitVec.extractLsb'_append_eq_of_le (by omega)]

end Bytes

theorem colorWord_red (r g b : Byte) : (colorWord r g b).extractLsb' 16 8 = r :=
  (upperByte_append (0#1 ++ r) g b).trans BitVec.extractLsb'_append_eq_right

theorem colorWord_green (r g b : Byte) : (colorWord r g b).extractLsb' 8 8 = g :=
  middleByte_append (0#1 ++ r) g b

theorem colorWord_blue (r g b : Byte) : (colorWord r g b).extractLsb' 0 8 = b :=
  lowByte_append (0#1 ++ r) g b

theorem tag_of_zero_append (payload : BitVec 24) : (0#1 ++ payload)[24] = false := by
  rw [BitVec.getElem_append]
  rfl

theorem colorWord_tag (r g b : Byte) : (colorWord r g b)[24] = false := by
  change (0#1 ++ r ++ g ++ b : BitVec (1 + 8 + 8 + 8))[24] = false
  simp only [BitVec.getElem_append]
  rfl

/-- A word with tag 0 is the color of its three bytes (R37). -/
theorem colorWord_of_tag {w : ElementWord} (ht : w[24] = false) :
    colorWord (w.extractLsb' 16 8) (w.extractLsb' 8 8) (w.extractLsb' 0 8) = w := by
  have htag : 0#1 = w.extractLsb' 24 1 := by
    ext i hi
    obtain rfl : i = 0 := by omega
    simpa using ht
  have join {i j n k : Nat} (h : i = j + k) : w.extractLsb' i n ++ w.extractLsb' j k = w.extractLsb' j (n + k) :=
    BitVec.extractLsb'_append_extractLsb'_eq_extractLsb' h
  unfold colorWord
  rw [htag, join (i := 24) (by rfl), join (i := 16) (by rfl), join (i := 8) (by rfl)]
  exact BitVec.extractLsb'_eq_self

theorem decode_colorElement {w : ElementWord} (ht : w[24] = false) :
    decode (.s w) = .ok (.color (w.extractLsb' 16 8) (w.extractLsb' 8 8) (w.extractLsb' 0 8)) := by
  simp [decode, decodeS, ht]

/-- The payload of an END element is not read (R42). -/
theorem decode_endElement {w : ElementWord} (ht : w[24] = true) : decode (.s w) = .ok .endSeq := by
  simp [decode, decodeS, ht]

/-! ### The decoder reads what the encoder writes -/

theorem decode_encode (i : Instr) : decode (encode i) = .ok i := by
  cases i with
  | color r g b =>
    have hword := decode_colorElement (colorWord_tag r g b)
    rwa [colorWord_red, colorWord_green, colorWord_blue] at hword
  | endSeq => exact decode_endElement (by decide)
  | waitTick | setHigh | setLow | bit0N | bit1N | bit0S | bit1S | nop | write | new => rfl

/-- A code that decodes is its operation's own code, but for the payload of an END element (R37, R42). -/
theorem encode_of_decode {c : Code} {i : Instr} (h : decode c = .ok i) :
    encode i = c ∨ (i = .endSeq ∧ ∃ w : ElementWord, c = .s w ∧ w[24] = true) := by
  cases c with
  | u c => rcases code2_cases c with rfl | rfl | rfl | rfl <;> cases h <;> exact .inl rfl
  | b c => rcases code2_cases c with rfl | rfl | rfl | rfl <;> cases h <;> exact .inl rfl
  | h c => rcases code2_cases c with rfl | rfl | rfl | rfl <;> cases h <;> exact .inl rfl
  | s w =>
    cases ht : w[24] with
    | false =>
      rw [decode_colorElement ht] at h
      cases h
      exact .inl (congrArg Code.s (colorWord_of_tag ht))
    | true =>
      rw [decode_endElement ht] at h
      cases h
      exact .inr ⟨rfl, w, rfl, ht⟩

/-- Settles O2: decoding an operation's own code by cases of the operation, and the converse by cases of the
code's format. -/
theorem decodeAndEncodeAgree : Obligations.DecodeAndEncodeAgree :=
  ⟨decode_encode, fun _ _ => encode_of_decode⟩

/-! ### The words of the tables -/

/-- Settles O1: each word is a row of the tables of R35 to R38. -/
theorem specWordsDecode : Obligations.SpecWordsDecode := by
  unfold Obligations.SpecWordsDecode
  decide

theorem decodeU_error_iff (c : Code2) (e : DecodeError) :
    decodeU c = .error e ↔ c = 3#2 ∧ e = .reservedMicroop := by
  rcases code2_cases c with rfl | rfl | rfl | rfl <;> cases e <;> decide

theorem decodeH_error_iff (c : Code2) (e : DecodeError) :
    decodeH c = .error e ↔ c = 3#2 ∧ e = .refusedHostCode := by
  rcases code2_cases c with rfl | rfl | rfl | rfl <;> cases e <;> decide

/-- Settles O3: formats U and H fail at their reserved code alone, formats B and S at none. -/
theorem reservedCodesRejectedByName : Obligations.ReservedCodesRejectedByName := by
  intro c e
  cases c with
  | u c => simpa [decode] using decodeU_error_iff c e
  | h c => simpa [decode] using decodeH_error_iff c e
  | b c => simp [decode]
  | s w => simp [decode]

end Sys2Proof.Machine
end

section
/-! PROOFS. The family of spec/30_encoding.md: the strings of a listing (R39 to R41, R43 to R45). -/

namespace Sys2Proof.Machine

/-! ### A byte, bit 7 first -/

theorem iterate_shiftByte (v : Byte) (i : Nat) : shiftByte^[i] v = v <<< i := by
  induction i with
  | zero => simp
  | succ i ih =>
    rw [Function.iterate_succ_apply', ih, shiftByte]
    exact (BitVec.shiftLeft_add v i 1).symm

/-- The data bit after `i` shifts is bit `7 - i` of the byte (R41). -/
theorem dataBit_iterate_shiftByte (v : Byte) {i : Nat} (hi : i < 8) :
    dataBit (shiftByte^[i] v) = v.getLsbD (7 - i) := by
  have hle : i ≤ 7 := by omega
  rw [iterate_shiftByte, dataBit, BitVec.getElem_shiftLeft]
  simpa [Nat.not_lt.mpr hle] using (BitVec.getLsbD_eq_getElem (x := v) (i := 7 - i) (by omega)).symm

/-- The bits of a word in the order they are sent, the highest first (R39, R58). -/
def sendOrder {n : Nat} (x : BitVec n) : List Bool := (List.range n).map (fun i => x.getLsbD (n - 1 - i))

theorem byteBits_eq_sendOrder (v : Byte) : byteBits v = sendOrder v := rfl

theorem sendOrder_append {m n : Nat} (x : BitVec m) (y : BitVec n) :
    sendOrder (x ++ y) = sendOrder x ++ sendOrder y := by
  unfold sendOrder
  rw [List.range_add, List.map_append, List.map_map]
  congr 1
  · refine List.map_congr_left fun i hi => ?_
    have hi : i < m := List.mem_range.mp hi
    rw [BitVec.getLsbD_append, if_neg (by omega)]
    congr 1
    omega
  · refine List.map_congr_left fun i hi => ?_
    have hi : i < n := List.mem_range.mp hi
    rw [Function.comp_apply, BitVec.getLsbD_append, if_pos (by omega)]
    congr 1
    omega

/-- Settles O5: shifting `i` times is `v <<< i`, and eight places are the whole byte. -/
theorem byteShiftsOutMsbFirst : Obligations.ByteShiftsOutMsbFirst := by
  intro v
  refine ⟨fun i => dataBit_iterate_shiftByte v, ?_, ?_⟩
  · rw [iterate_shiftByte]
    exact BitVec.shiftLeft_eq_zero le_rfl
  · rw [byteBits_eq_sendOrder]
    exact List.map_congr_left fun i hi => (dataBit_iterate_shiftByte v (List.mem_range.mp hi)).symm

theorem byteBits_injective : Function.Injective byteBits := by
  intro v w h
  simp only [byteBits, List.cons.injEq, and_true] at h
  obtain ⟨h7, h6, h5, h4, h3, h2, h1, h0⟩ := h
  ext i hi
  interval_cases i <;> assumption

/-! ### A color as the bits of its line word -/

/-- The 24 data bits of a color in the order they are sent: green, red, blue (R68). -/
def colorBits (r g b : Byte) : List Bool := byteBits g ++ byteBits r ++ byteBits b

theorem colorCodes_eq (p : Profile) (r g b : Byte) :
    colorCodes p r g b = 0#2 :: (colorBits r g b).flatMap (pattern p) := by
  simp [colorCodes, colorBits, byteCodes]

theorem colorBits_eq_sendOrder (r g b : Byte) : colorBits r g b = sendOrder (lineWord r g b) := by
  have hword : sendOrder (lineWord r g b) = sendOrder g ++ sendOrder r ++ sendOrder b :=
    (sendOrder_append (g ++ r) b).trans (congrArg (· ++ sendOrder b) (sendOrder_append g r))
  exact hword.symm

/-- Settles O4: the line word is read by its three bytes, and the bits sent are those of the word. -/
theorem colorSentAsLineWord : Obligations.ColorSentAsLineWord := by
  intro p r g b
  refine ⟨(upperByte_append g r b).trans BitVec.extractLsb'_eq_self, middleByte_append g r b,
    lowByte_append g r b, ?_⟩
  rw [colorCodes_eq, colorBits_eq_sendOrder, sendOrder, List.flatMap_map]

/-! ### The pseudo-instructions -/

/-- The rows of R40's table are the symbols of the codes `{p, d}` with their patterns (R36, R51). -/
theorem symbol_mem_symbolTable (p : Profile) (d : Bool) :
    (decodeB (symbolCode p d), pattern p d) ∈ symbolTable := by
  cases p <;> cases d <;> decide

/-- Settles O6: each expansion is the one `Pseudo.expand` defines, and `assemble` concatenates them. -/
theorem pseudoInstructionsExpand : Obligations.PseudoInstructionsExpand := fun p =>
  ⟨rfl, rfl, rfl, fun _ => rfl, fun d => ⟨rfl, symbol_mem_symbolTable p d⟩, fun _ => rfl, rfl,
    fun _ _ _ => rfl, rfl, fun _ => rfl, fun _ => rfl, fun _ => List.append_nil _,
    fun _ _ => List.flatMap_append⟩

/-! ### The grammar of a write is unambiguous -/

theorem pattern_injective (p : Profile) : Function.Injective (pattern p) := by
  cases p <;> decide

/-- A string of symbols has one reading, since all patterns of a profile have the same length. -/
theorem flatMap_pattern_injective (p : Profile) :
    Function.Injective (fun bits : List Bool => bits.flatMap (pattern p)) := by
  have hlen (d d' : Bool) : (pattern p d).length = (pattern p d').length := by rw [pattern_length, pattern_length]
  have hne (d : Bool) : pattern p d ≠ [] := by cases p <;> cases d <;> decide
  intro bits
  induction bits with
  | nil =>
    intro bits' h
    cases bits' with
    | nil => rfl
    | cons d' ds' => exact absurd h.symm (by simp [hne])
  | cons d ds ih =>
    intro bits' h
    cases bits' with
    | nil => exact absurd h (by simp [hne])
    | cons d' ds' =>
      simp only [List.flatMap_cons] at h
      obtain ⟨hd, hds⟩ := List.append_inj h (hlen d d')
      rw [pattern_injective p hd, ih hds]

theorem colorBits_inj {r g b r' g' b' : Byte} (h : colorBits r g b = colorBits r' g' b') :
    r = r' ∧ g = g' ∧ b = b' := by
  obtain ⟨hgr, hb⟩ := List.append_inj h rfl
  obtain ⟨hg, hr⟩ := List.append_inj hgr rfl
  exact ⟨byteBits_injective hr, byteBits_injective hg, byteBits_injective hb⟩

theorem flatMap_pattern_length (p : Profile) (bits : List Bool) :
    (bits.flatMap (pattern p)).length = bits.length * Config.symbolLength p := by
  simp [List.length_flatMap, pattern_length]

theorem colorCodes_length (p : Profile) (r g b : Byte) :
    (colorCodes p r g b).length = 24 * Config.symbolLength p + 1 := by
  rw [colorCodes_eq, List.length_cons, flatMap_pattern_length]
  rfl

theorem frameCodes_cons (p : Profile) (c : Byte × Byte × Byte) (cs : List (Byte × Byte × Byte)) :
    frameCodes p (c :: cs) = colorCodes p c.1 c.2.1 c.2.2 ++ frameCodes p cs := by
  simp [frameCodes]

/-- The third micro-operation tells a color from the gap: the first SET_HIGH of its first symbol (R43). -/
theorem frameCodes_cons_ne_nil (p : Profile) (c : Byte × Byte × Byte) (cs : List (Byte × Byte × Byte)) :
    frameCodes p (c :: cs) ≠ frameCodes p [] := by
  have hhigh (d : Bool) (codes : List Code2) : (pattern p d ++ codes)[1]? = some 1#2 := by
    cases p <;> cases d <;> rfl
  have hcolor : (frameCodes p (c :: cs))[2]? = some 1#2 := by
    rw [frameCodes_cons, colorCodes_eq, List.cons_append, List.getElem?_cons_succ]
    simp only [colorBits, byteBits, List.cons_append, List.flatMap_cons, List.append_assoc]
    exact hhigh _ _
  have hgap : (frameCodes p [])[2]? = some 0#2 := rfl
  intro h
  rw [h, hgap] at hcolor
  exact absurd hcolor (by decide)

/-- Settles O7: the first color is read off the frame string by its length, and the gap tells where no color is
left. -/
theorem frameStringDeterminesColors : Obligations.FrameStringDeterminesColors := by
  intro p cs
  induction cs with
  | nil =>
    intro cs' h
    cases cs' with
    | nil => rfl
    | cons c' cs' => exact absurd h.symm (frameCodes_cons_ne_nil p c' cs')
  | cons c cs ih =>
    intro cs' h
    cases cs' with
    | nil => exact absurd h (frameCodes_cons_ne_nil p c cs)
    | cons c' cs' =>
      rw [frameCodes_cons, frameCodes_cons] at h
      obtain ⟨hc, hcs⟩ := List.append_inj h (by rw [colorCodes_length, colorCodes_length])
      rw [colorCodes_eq, colorCodes_eq, List.cons.injEq] at hc
      obtain ⟨hr, hg, hb⟩ := colorBits_inj (flatMap_pattern_injective p hc.2)
      rw [ih cs' hcs, show c = c' from Prod.ext hr (Prod.ext hg hb)]

end Sys2Proof.Machine
end

section
/-! PROOFS. The family of spec/30_encoding.md: what a step performs of a code it reads, a bit symbol, a listing,
an element, a host command and a placed code. -/

namespace Sys2Proof.Machine

/-! ### One step of a bit symbol -/

/-- No pattern of R40's table holds the reserved code (R42). -/
theorem symbolTable_codes : ∀ row ∈ symbolTable, ∀ c ∈ row.2, c ≠ 3#2 := by decide

section Symbol

variable {i : Instr} {p : List Code2} {s : State} {k : BitVec 3} {c : Code2}

/-- The meaning of a symbol at a position of its pattern (R63). -/
theorem exec_symbol_eq (h : (i, p) ∈ symbolTable) (hk : s.step = some k) (hc : p[k.toNat]? = some c) :
    exec i s =
      if (afterMicroOp c s).held c then .next (afterMicroOp c s)
      else if k.toNat + 1 < p.length then .next { afterMicroOp c s with step := some (k + 1#3) }
      else (afterMicroOp c s).symbolDone :=
  (exec_of_mem_symbolTable h s).trans
    (s.encodeStep_eq p hk hc (symbolTable_codes _ h c (List.mem_of_getElem? hc)))

theorem exec_symbol_held (h : (i, p) ∈ symbolTable) (hk : s.step = some k) (hc : p[k.toNat]? = some c)
    (hh : holdsAfter c s) : exec i s = .next (afterMicroOp c s) := by
  rw [exec_symbol_eq h hk hc, if_pos ((s.held_iff c).mpr hh)]

theorem exec_symbol_inside (h : (i, p) ∈ symbolTable) (hk : s.step = some k) (hc : p[k.toNat]? = some c)
    (hh : ¬ holdsAfter c s) (hlt : k.toNat + 1 < p.length) :
    exec i s = .next { afterMicroOp c s with step := some (k + 1#3) } := by
  rw [exec_symbol_eq h hk hc, if_neg (mt (s.held_iff c).mp hh), if_pos hlt]

theorem exec_symbol_last (h : (i, p) ∈ symbolTable) (hk : s.step = some k) (hc : p[k.toNat]? = some c)
    (hh : ¬ holdsAfter c s) (hlast : k.toNat + 1 = p.length) :
    exec i s = (afterMicroOp c s).symbolDone := by
  rw [exec_symbol_eq h hk hc, if_neg (mt (s.held_iff c).mp hh), if_neg hlast.not_lt]

end Symbol

/-- Inside a byte the end of a symbol shifts the byte and counts the bit (R63). -/
theorem State.symbolDone_bit {s : State} {d : Byte} {n : BitVec 3} (hd : s.data = some d) (hn : s.bit = some n)
    (hlt : n.toNat < 7) :
    s.symbolDone = .next { s with step := some 0#3, data := some (shiftByte d), bit := some (n + 1#3) } := by
  simp [State.symbolDone, hd, hn, moreBits, hlt]

/-- At bit 7 the end of a symbol is the end of its byte (R63). -/
theorem State.symbolDone_byte {s : State} {d : Byte} (hd : s.data = some d) (hn : s.bit = some 7#3) :
    s.symbolDone
      = State.byteDone { s with step := some 0#3, data := some (shiftByte d), bit := some 0#3 } := by
  simp [State.symbolDone, hd, hn, moreBits]

/-- The end of the green byte loads red, the end of the red byte loads blue (R63, R68). -/
theorem State.byteDone_channel {s : State} {c : BitVec 2} {v : Byte} (hc : s.ch = some c)
    (hv : (c = 0#2 ∧ s.r = some v) ∨ (c = 1#2 ∧ s.b = some v)) :
    s.byteDone = .next { s with ch := some (c + 1#2), data := some v } := by
  obtain ⟨rfl, hr⟩ | ⟨rfl, hb⟩ := hv
  · simp [State.byteDone, hc, moreChannels, State.channelByte, hr]
  · simp [State.byteDone, hc, moreChannels, State.channelByte, hb]

/-- Settles O12: before the last position the ENCODE_BYTE step holds or moves on by one. -/
theorem symbolPerformsNextMicroOp : Obligations.SymbolPerformsNextMicroOp :=
  fun _ _ hmem _ _ _ hk hlt hc =>
    ⟨exec_symbol_held hmem hk hc, fun hh => exec_symbol_inside hmem hk hc hh hlt⟩

/-- Settles O13: at the last position the symbol is done, inside the byte. -/
theorem symbolEndShiftsByte : Obligations.SymbolEndShiftsByte := by
  intro i p hmem s k n c d hk hlast hc hd hn hlt
  refine ⟨exec_symbol_held hmem hk hc, fun hh => ?_⟩
  rw [exec_symbol_last hmem hk hc hh hlast,
    State.symbolDone_bit ((afterMicroOp_data c s).trans hd) ((afterMicroOp_bit c s).trans hn) hlt]
  rfl

/-- Settles O14: at the last position of bit 7 the byte is done, and the next channel's byte replaces it. -/
theorem byteEndLoadsNextChannel : Obligations.ByteEndLoadsNextChannel := by
  intro i p hmem s k c d v h hk hlast hc hd hn hch hv
  refine ⟨exec_symbol_held hmem hk hc, fun hh => ?_⟩
  rw [exec_symbol_last hmem hk hc hh hlast,
    State.symbolDone_byte ((afterMicroOp_data c s).trans hd) ((afterMicroOp_bit c s).trans hn),
    State.byteDone_channel (c := h) (v := v) (by simpa using hch) (by simpa using hv)]

/-! ### A listing -/

/-- A micro-operation neither reads nor writes the listing. -/
theorem afterMicroOp_withListing (c : Code2) (s : State) (cs : List Code2) :
    afterMicroOp c { s with listing := cs } = { afterMicroOp c s with listing := cs } := by
  unfold afterMicroOp
  split_ifs
  · rw [State.waitTick_eq, State.waitTick_eq]
    rfl
  · rfl
  · rfl

/-- Performing a code of format U is its micro-operation, then the update of the position (R35). -/
theorem State.perform_microOp (s : State) (o : Origin) {c : Code2} (hc : c ≠ 3#2) :
    ∃ i, (i = .waitTick ↔ c = 0#2) ∧ s.perform o (.u c) = (afterMicroOp c s).advance o i := by
  rcases code2_cases c with rfl | rfl | rfl | rfl
  · exact ⟨.waitTick, by decide, rfl⟩
  · exact ⟨.setHigh, by decide, rfl⟩
  · exact ⟨.setLow, by decide, rfl⟩
  · exact absurd rfl hc

/-- In a block not yet built the head of the listing is what a step performs (log 8). -/
theorem step_of_listing {s u : State} {c : Code2} {cs : List Code2} (hu : s.tickEdges = u)
    (hn : u.unbuilt = true) (hl : u.listing = c :: cs) :
    step s = State.perform { u with listing := cs } .listing (.u c) := by
  obtain ⟨-, hlisting, -⟩ := positionNamesOperation u
  simp only [step, hu, hlisting hn c cs hl]

/-- Settles O39: the head leaves the listing before it is performed, and a wait still in progress is put back. -/
theorem listingPerformsLeftToRight : Obligations.ListingPerformsLeftToRight := by
  intro s u c cs hu hn hl
  rw [step_of_listing hu hn hl]
  refine ⟨?reserved, fun hc hh => ?done, fun hh => ?held⟩
  case reserved =>
    rintro rfl
    rfl
  case done =>
    obtain ⟨i, hi, hperform⟩ := State.perform_microOp { u with listing := cs } .listing hc
    rw [hperform, afterMicroOp_withListing]
    refine State.advance_listing_done _ fun hwait => ?_
    exact Bool.eq_false_iff.mpr fun hw => hh ⟨hi.mp hwait, hw⟩
  case held =>
    obtain ⟨rfl, hw⟩ := hh
    have hkeep : ({ afterMicroOp 0#2 u with listing := 0#2 :: cs } : State) = afterMicroOp 0#2 u := by
      rw [← hl, ← afterMicroOp_listing 0#2 u]
    obtain ⟨i, hi, hperform⟩ := State.perform_microOp { u with listing := cs } .listing (c := 0#2) (by decide)
    rw [hperform, afterMicroOp_withListing, hi.mpr rfl]
    exact (State.advance_listing_held { afterMicroOp 0#2 u with listing := cs } hw).trans
      (congrArg Host.Outcome.next hkeep)

/-! ### An element of the item source -/

section Item

variable {u : State}

/-- In FETCH the item source is asked, when no eager command comes first (R61). -/
theorem State.fetch_of_fetching (hp : u.phase = .fetch) (he : u.hostEager = false) :
    u.fetch = u.fetchItem := by
  rw [State.fetch_of_writing (by rw [hp]; rfl) he]
  simp only [State.fetchPhase, hp]

theorem State.fetchItem_silent (hr : u.itemReadyNow = false) :
    u.fetchItem = .hold { u with items := u.items.pop } := by
  simp [State.fetchItem, hr]

theorem State.fetchItem_word (hr : u.itemReadyNow = true) {w : ElementWord} {ws : List ElementWord}
    (hw : u.rest.words = w :: ws) :
    u.fetchItem = .op .item (.s w) { u with items := u.items.pop, rest := { u.rest with words := ws } } := by
  simp [State.fetchItem, hr, hw]

theorem State.fetchItem_spent (hr : u.itemReadyNow = true) (hw : u.rest.words = [])
    (he : u.rest.endless = false) :
    u.fetchItem = .op .item (.s endWord) { u with items := u.items.pop } := by
  simp [State.fetchItem, hr, hw, he]

theorem State.fetchItem_endless (hr : u.itemReadyNow = true) (hw : u.rest.words = [])
    (he : u.rest.endless = true) :
    u.fetchItem = .op .item (.s (0#1 ++ u.colors.peek Config.endlessColor))
      { u with items := u.items.pop, colors := u.colors.pop } := by
  simp [State.fetchItem, hr, hw, he]

theorem State.perform_colorElement (t : State) {w : ElementWord} (hw : w[24] = false) :
    t.perform .item (.s w)
      = execColor (w.extractLsb' 16 8) (w.extractLsb' 8 8) (w.extractLsb' 0 8) t := by
  simp only [State.perform, decode_colorElement hw]
  rfl

theorem State.perform_endElement (t : State) {w : ElementWord} (hw : w[24] = true) :
    t.perform .item (.s w) = execEndSeq t := by
  simp only [State.perform, decode_endElement hw]
  rfl

end Item

/-- Settles O23: the answers of the item source are the cases of `State.fetchItem`, and the element it gives is
performed by its tag. -/
theorem fetchStepTakesNextElement : Obligations.FetchStepTakesNextElement := by
  intro s u hu hp he
  have hfetch := State.fetch_of_fetching hp he
  have hop {w : ElementWord} {t : State} (h : u.fetchItem = .op .item (.s w) t) :
      step s = t.perform .item (.s w) := by
    simp only [step, hu, hfetch, h]
  refine ⟨fun hr => ?silent, fun hr w ws hw ht => ?color, fun hr w ws hw ht => ?endSeq,
    fun hr hw hfinite => ?spent, fun hr hw hendless => ?endless⟩
  case silent => simp only [step, hu, hfetch, State.fetchItem_silent hr]
  case color =>
    rw [hop (State.fetchItem_word hr hw), State.perform_colorElement _ ht]
    rfl
  case endSeq =>
    rw [hop (State.fetchItem_word hr hw), State.perform_endElement _ ht]
    rfl
  case spent =>
    rw [hop (State.fetchItem_spent hr hw hfinite), State.perform_endElement _ (by decide)]
    rfl
  case endless =>
    have hitem := State.fetchItem_endless hr hw hendless
    generalize u.colors.peek Config.endlessColor = x at hitem
    refine ⟨(0#1 ++ x).extractLsb' 16 8, (0#1 ++ x).extractLsb' 8 8, (0#1 ++ x).extractLsb' 0 8, ?_⟩
    rw [hop hitem, State.perform_colorElement _ (tag_of_zero_append x)]
    rfl

/-! ### A host command -/

/-- A command at the head of a port that is served is the step's operation (R38, D10). -/
theorem State.fetch_of_serves {u : State} (hs : u.Serves) {c : Code2} {seq : Stream} {eager : Bool}
    {more : List HostAct} (hh : u.host = .cmd c seq eager :: more) :
    u.fetch = .op .host (.h c) { u with host := more, offer := seq } := by
  obtain ⟨hd, ⟨hb, hl⟩ | ⟨hb, he⟩⟩ := hs
  · rw [State.fetch_of_not_busy hb hl, State.fetchHost_cmd hh hd]
  · rw [State.fetch_of_eager hb he, State.fetchHost_cmd hh hd]

/-- Settles O29: the served code is 11, which the decoder rejects and the step answers with a mark. -/
theorem hostCode11Refused : Obligations.HostCode11Refused := by
  intro s u seq eager more hu hh hd hserved
  have hs : u.Serves := ⟨hd, hserved.imp_right fun ⟨hb, he⟩ => ⟨hb, by simpa [State.hostEager, hh] using he⟩⟩
  simp only [step, hu, State.fetch_of_serves hs hh]
  rfl

/-! ### A placed code -/

/-- A placed symbol code is the code of the profile and the data bit it sets (R36). -/
theorem symbolCode_of_bits (code : Code2) :
    symbolCode (if code[1] then .slow else .normal) (dataBit (if code[0] then 0x80#8 else 0x00#8)) = code := by
  rcases code2_cases code with rfl | rfl | rfl | rfl <;> rfl

theorem place_u_fetch (s : State) (c : Code2) :
    ∃ t, (s.place (.u c)).tickEdges.fetch = .op .listing (.u c) t := by
  obtain ⟨-, hlisting, -⟩ := positionNamesOperation (s.place (.u c)).tickEdges
  exact ⟨_, hlisting rfl c s.listing rfl⟩

theorem place_b_fetch (s : State) (c : Code2) :
    ∃ t, (s.place (.b c)).tickEdges.fetch = .op .symbol (.b c) t := by
  obtain ⟨-, -, -, -, -, -, hsymbol, -⟩ := positionNamesOperation (s.place (.b c)).tickEdges
  refine ⟨(s.place (.b c)).tickEdges, (hsymbol rfl rfl _ rfl).trans ?_⟩
  exact congrArg (fun code => Fetched.op .symbol (.b code) (s.place (.b c)).tickEdges) (symbolCode_of_bits c)

theorem place_s_fetch (s : State) (w : ElementWord) :
    ∃ t, (s.place (.s w)).tickEdges.fetch = .op .item (.s w) t := by
  rw [State.fetch_of_fetching rfl rfl]
  exact ⟨_, State.fetchItem_word rfl rfl⟩

/-- A command placed at the port is served, whatever the phase: no listing comes first, a block inside NEW or a
write is served eagerly, and an IDLE block is not discarded. -/
theorem place_h_serves (s : State) (c : Code2) : (s.place (.h c)).tickEdges.Serves := by
  refine ⟨?_, ?_⟩
  · cases hp : s.phase <;> simp [State.discarded, State.place, hp]
  · cases hb : (s.place (.h c)).tickEdges.busy with
    | false => exact .inl ⟨rfl, fun _ => rfl⟩
    | true => exact .inr ⟨rfl, rfl⟩

/-- Settles O33: by the format of the code, each placed where its port is read. -/
theorem placedCodeIsFetched : Obligations.PlacedCodeIsFetched := by
  intro s c
  cases c with
  | u c => exact ⟨_, place_u_fetch s c⟩
  | b c => exact ⟨_, place_b_fetch s c⟩
  | s w => exact ⟨_, place_s_fetch s w⟩
  | h c => exact ⟨_, _, State.fetch_of_serves (place_h_serves s c) rfl⟩

end Sys2Proof.Machine
end

section
/-! PROOFS. The family of spec/40_bit_encoder.md: the pin commands, the waveforms of the four bit symbols, and a
wait without a tick. -/

namespace Sys2Proof.Machine

/-! ### The pin commands -/

/-- A pin command as one update of the state, by the draw that answers it (R47). -/
theorem State.pinSet_of_draw {s : State} {d : PinDraw} (hd : s.pinNow = d) (l : Level) :
    s.pinSet l = { s with
      pins := s.pins.pop
      line := levelAfter l d
      log := s.log ++ [entry s.clock (.pin l (answerOf d)) (levelAfter l d)] } := by
  subst hd
  rfl

/-- Settles O10: SET_HIGH is the pin command with the level HIGH, and the draw gives the answer and the level. -/
theorem setHighCommandsLine : Obligations.SetHighCommandsLine :=
  ⟨rfl, fun _ => ⟨rfl, fun hok => congrArg Host.Outcome.next (State.pinSet_of_draw hok .high),
    fun _ herr => congrArg Host.Outcome.next (State.pinSet_of_draw herr .high)⟩⟩

/-- Settles O11: SET_LOW is the pin command with the level LOW, and the draw gives the answer and the level. -/
theorem setLowCommandsLine : Obligations.SetLowCommandsLine :=
  ⟨rfl, fun _ => ⟨rfl, fun hok => congrArg Host.Outcome.next (State.pinSet_of_draw hok .low),
    fun _ herr => congrArg Host.Outcome.next (State.pinSet_of_draw herr .low)⟩⟩

/-! ### One ENCODE_BYTE step -/

/-- The ENCODE_BYTE step of a block to which no command is presented eagerly (R63). -/
theorem step_of_encodeByte {s : State} {d : Byte} (hp : s.phase = .encodeByte) (he : s.hostEager = false)
    (hd : s.data = some d) : step s = s.tickEdges.encodeStep (pattern s.cfg.profile (dataBit d)) := by
  obtain ⟨-, -, -, -, -, -, hsymbol, -⟩ := positionNamesOperation s.tickEdges
  have hexec : exec (decodeB (symbolCode s.cfg.profile d[7])) s.tickEdges
      = s.tickEdges.encodeStep (pattern s.cfg.profile (dataBit d)) := exec_decodeB _ _ _
  simp only [step, hsymbol he hp d hd, State.perform, decode, State.tickEdges_cfg, hexec]
  cases s.tickEdges.encodeStep (pattern s.cfg.profile (dataBit d)) <;> rfl

/-- Before the last position of a symbol the step counts on without overflow (R12). -/
theorem toNat_nextStep {k : BitVec 3} {p : Profile} (hlt : k.toNat + 1 < Config.symbolLength p) :
    (k + 1#3).toNat = k.toNat + 1 := by
  have hle := symbolLength_le p
  simp only [BitVec.toNat_add, BitVec.toNat_ofNat]
  omega

/-- What the end of a symbol can write: the phase, and the channel, byte, bit and step of the byte loop (R63). -/
structure Position where
  phase : Phase
  ch : Option (BitVec 2)
  data : Option Byte
  bit : Option (BitVec 3)
  step : Option (BitVec 3)

/-- The state moved to another position. -/
def State.moveTo (s : State) (q : Position) : State :=
  { s with phase := q.phase, ch := q.ch, data := q.data, bit := q.bit, step := q.step }

/-- Inside the ranges of R12 the end of a symbol always has a next position. -/
theorem State.symbolDone_of_inRange {s : State} (hp : s.phase = .encodeByte) (hrange : s.inRange = true) :
    ∃ q, s.symbolDone = .next (s.moveTo q) := by
  obtain ⟨hr, hb, hd, hn, ⟨c, hc, hle⟩, -⟩ := (State.inRange_encodeByte hp).mp hrange
  obtain ⟨r, hr⟩ := Option.isSome_iff_exists.mp hr
  obtain ⟨b, hb⟩ := Option.isSome_iff_exists.mp hb
  obtain ⟨d, hd⟩ := Option.isSome_iff_exists.mp hd
  obtain ⟨n, hn⟩ := Option.isSome_iff_exists.mp hn
  by_cases hlt : n.toNat < 7
  · exact ⟨⟨_, _, _, _, _⟩, State.symbolDone_bit hd hn hlt⟩
  · obtain rfl : n = 7#3 := BitVec.eq_of_toNat_eq (show n.toNat = 7 by omega)
    rw [State.symbolDone_byte hd hn]
    rcases code2_cases c with rfl | rfl | rfl | rfl
    · exact ⟨⟨_, _, _, _, _⟩, State.byteDone_channel hc (.inl ⟨rfl, hr⟩)⟩
    · exact ⟨⟨_, _, _, _, _⟩, State.byteDone_channel hc (.inr ⟨rfl, hb⟩)⟩
    · exact ⟨⟨.fetch, _, _, _, _⟩, by simp only [State.byteDone, hc]; rfl⟩
    · exact absurd hle (by decide)

/-- A running write inside a bit symbol, with the micro-operations `cs` of its pattern still to perform. -/
structure State.InSymbol (s : State) (cs : List Code2) : Prop where
  phase : s.phase = .encodeByte
  range : s.inRange = true
  left : ∃ d k, s.data = some d ∧ s.step = some k ∧ (pattern s.cfg.profile (dataBit d)).drop k.toNat = cs

/-- A step inside a symbol whose micro-operation is not a wait still in progress performs it and moves the
position, to the rest of the symbol while there is one (R63). -/
theorem step_of_inSymbol {s : State} {c : Code2} {cs : List Code2} (h : s.InSymbol (c :: cs))
    (he : s.hostEager = false) (hh : ¬ holdsAfter c s.tickEdges) :
    ∃ q, step s = .next ((afterMicroOp c s.tickEdges).moveTo q)
      ∧ (cs ≠ [] → ((afterMicroOp c s.tickEdges).moveTo q).InSymbol cs) := by
  obtain ⟨hp, hr, d, k, hd, hk, hleft⟩ := h
  have hc : (pattern s.cfg.profile (dataBit d))[k.toNat]? = some c := by
    rw [← List.head?_drop, hleft, List.head?_cons]
  have hrest : (pattern s.cfg.profile (dataBit d)).drop (k.toNat + 1) = cs := by
    rw [← List.tail_drop, hleft, List.tail_cons]
  have hmoves : k.toNat + 1 < (pattern s.cfg.profile (dataBit d)).length ↔ cs ≠ [] := by
    rw [← hrest, ne_eq, List.drop_eq_nil_iff, not_le]
  have hcode : c ≠ 3#2 := pattern_codes _ _ c (List.mem_of_getElem? hc)
  rw [step_of_encodeByte hp he hd, s.tickEdges.encodeStep_eq _ hk hc hcode,
    if_neg (mt (State.held_iff _ c).mp hh)]
  by_cases hcs : cs = []
  · rw [if_neg (mt hmoves.mp (not_not_intro hcs))]
    obtain ⟨q, hq⟩ := State.symbolDone_of_inRange (s := afterMicroOp c s.tickEdges) (by simpa using hp)
      (by rw [afterMicroOp_inRange]; exact hr)
    exact ⟨q, hq, fun hne => absurd hcs hne⟩
  · have hlt := hmoves.mpr hcs
    have hmove : Moves s.tickEdges { afterMicroOp c s.tickEdges with step := some (k + 1#3) } :=
      .symbolNext d k c hp hd hk hc hh (by rwa [pattern_length] at hlt)
    have hsucc : (k + 1#3).toNat = k.toNat + 1 := toNat_nextStep (by rwa [pattern_length] at hlt)
    rw [if_pos hlt]
    refine ⟨⟨_, _, _, _, some (k + 1#3)⟩, rfl, fun _ => ⟨?_, hmove.inRange hr, d, k + 1#3, ?_, rfl, ?_⟩⟩
    · simpa [State.moveTo] using hp
    · simpa [State.moveTo] using hd
    · simpa [State.moveTo, hsucc] using hrest

/-! ### The waveform of a bit symbol -/

/-- One beat of a symbol under the ideal schedule: a wait that a tick edge just before it ends, or a pin command
with the draw that answers it and no edge. -/
inductive Beat where
  | wait
  | pin (level : Level) (d : PinDraw)

/-- The micro-operation of the beat (R40). -/
def Beat.code : Beat → Code2
  | .wait => 0#2
  | .pin .high _ => 1#2
  | .pin .low _ => 2#2

/-- The tick edges before the beat. -/
def Beat.edges : Beat → Nat
  | .wait => 1
  | .pin _ _ => 0

/-- The pin draw the beat uses. -/
def Beat.draw? : Beat → Option PinDraw
  | .wait => none
  | .pin _ d => some d

/-- The event the beat records (R48 to R50). -/
def Beat.event : Beat → Event
  | .wait => .wait .tick
  | .pin level d => .pin level (answerOf d)

/-- The line's level after the beat, from the level before it (R47). -/
def Beat.line (l : Level) : Beat → Level
  | .wait => l
  | .pin level d => levelAfter level d

/-- The line's level after the beats. -/
def lineAfter (bs : List Beat) (l : Level) : Level := bs.foldl Beat.line l

/-- The entries the beats record, from the clock and the line's level before them (R109, R110). -/
def waveform : List Beat → Nat → Level → List Entry
  | [], _, _ => []
  | b :: bs, n, l => entry (n + b.edges) b.event (b.line l) :: waveform bs (n + b.edges) (b.line l)

/-- The host is silent, no tick is pending, no poll fails under `TICK_LATCH = 1`, and tick edges and pin draws
come as the beats ask. -/
structure State.Follows (s : State) (bs : List Beat) : Prop where
  silent : s.host = []
  fresh : s.waiting = false
  none : s.pending = false
  latch : s.cfg.tickLatch = true
  sure : s.cfg.tickMayFail = false
  ticking : ∃ more, s.edges.script = bs.map Beat.edges ++ more
  pins : ∃ more, s.pins.script = bs.filterMap Beat.draw? ++ more

/-- The effect of one beat, beside the position: it ends its wait, records its event with its tick and the level
after it, and leaves what the other beats ask for. -/
structure BeatEffect (s t : State) (b : Beat) (bs : List Beat) : Prop where
  done : ¬ holdsAfter b.code s.tickEdges
  clock : t.clock = s.clock + b.edges
  line : t.line = b.line s.line
  log : t.log = s.log ++ [entry (s.clock + b.edges) b.event (b.line s.line)]
  next : t.Follows bs

/-- The tick edges before the next step are those of the first beat. -/
theorem State.Follows.edgesNow {s : State} {b : Beat} {bs : List Beat} (h : s.Follows (b :: bs)) :
    s.edgesNow = b.edges := by
  obtain ⟨more, hscript⟩ := h.ticking
  simp [State.edgesNow, Draws.peek, hscript]

/-- A beat of the ideal schedule has its effect: its micro-operation is answered as the beat says. -/
theorem beatEffect {s : State} {b : Beat} {bs : List Beat} (h : s.Follows (b :: bs)) :
    BeatEffect s (afterMicroOp b.code s.tickEdges) b bs := by
  have hedges := h.edgesNow
  have hclock : s.tickEdges.clock = s.clock + b.edges := by simp [hedges]
  obtain ⟨hsilent, hfresh, hnone, hlatch, hsure, ⟨edges, hticking⟩, draws, hpins⟩ := h
  have hticking' : s.edges.pop.script = bs.map Beat.edges ++ edges := by simp [Draws.pop, hticking]
  cases b with
  | wait =>
    obtain ⟨-, -, hready, -⟩ := waitTickPolls s.tickEdges
    have hexec : exec .waitTick s.tickEdges = .next (afterMicroOp Beat.wait.code s.tickEdges) := rfl
    have hafter := Host.Outcome.next.inj (hexec.symm.trans
      (hready (by simp [State.pollFailsNow, hsure]) (by simp [hedges, Beat.edges, hlatch])))
    exact {
      done := fun hheld => nomatch hafter ▸ hheld.2
      clock := by rw [hafter, ← hclock]
      line := by rw [hafter]; rfl
      log := by rw [hafter, ← hclock]; rfl
      next := hafter ▸ ⟨hsilent, rfl, rfl, hlatch, hsure, ⟨edges, hticking'⟩, draws, hpins⟩ }
  | pin level d =>
    have hdraw : s.tickEdges.pinNow = d := by simp [State.pinNow, Draws.peek, hpins, Beat.draw?]
    have hafter : afterMicroOp (Beat.pin level d).code s.tickEdges = s.tickEdges.pinSet level := by
      cases level <;> rfl
    exact {
      done := by cases level <;> simp [holdsAfter, Beat.code]
      clock := by rw [hafter, State.pinSet_clock, hclock]
      line := by rw [hafter, State.pinSet_line, hdraw]; rfl
      log := by rw [hafter, State.pinSet_log, hdraw, hclock]; rfl
      next := hafter ▸ ⟨hsilent, hfresh, by simp [hnone, hedges, Beat.edges], hlatch, hsure, ⟨edges, hticking'⟩,
        draws, by simp [Draws.pop, hpins, Beat.draw?]⟩ }

/-- Where the block stands does not matter to what a beat has done. -/
theorem BeatEffect.moveTo {s t : State} {b : Beat} {bs : List Beat} (h : BeatEffect s t b bs) (q : Position) :
    BeatEffect s (t.moveTo q) b bs := by
  obtain ⟨hdone, hclock, hline, hlog, hsilent, hfresh, hnone, hlatch, hsure, hticking, hpins⟩ := h
  exact ⟨hdone, hclock, hline, hlog, hsilent, hfresh, hnone, hlatch, hsure, hticking, hpins⟩

/-- The step of a beat: it has the beat's effect, and the rest of the symbol is next while there is one. -/
theorem step_of_beat {s : State} {b : Beat} {bs : List Beat} (hf : s.Follows (b :: bs))
    (hs : s.InSymbol ((b :: bs).map Beat.code)) :
    ∃ t, step s = .next t ∧ BeatEffect s t b bs ∧ (bs ≠ [] → t.InSymbol (bs.map Beat.code)) := by
  have heffect := beatEffect hf
  have heager : s.hostEager = false := by simp [State.hostEager, hf.silent]
  obtain ⟨q, hstep, hnext⟩ := step_of_inSymbol hs heager heffect.done
  exact ⟨_, hstep, heffect.moveTo q, fun hne => hnext (mt List.map_eq_nil_iff.mp hne)⟩

theorem core_run_succ {s t : State} (h : step s = .next t) (n : Nat) : core.run (n + 1) s = core.run n t := by
  have hstep : core.step s = .next t := h
  simp only [Host.Core.run, hstep]

/-- The run of the rest of a symbol records the waveform of its beats. -/
theorem run_of_beats (bs : List Beat) {s : State} (hf : s.Follows bs)
    (hs : bs ≠ [] → s.InSymbol (bs.map Beat.code)) :
    ∃ t, core.run bs.length s = .next t ∧ t.line = lineAfter bs s.line
      ∧ t.log = s.log ++ waveform bs s.clock s.line := by
  induction bs generalizing s with
  | nil => exact ⟨s, rfl, rfl, (List.append_nil _).symm⟩
  | cons b bs ih =>
    obtain ⟨u, hstep, heffect, hnext⟩ := step_of_beat hf (hs (List.cons_ne_nil b bs))
    obtain ⟨t, hrun, hline, hlog⟩ := ih heffect.next hnext
    refine ⟨t, (core_run_succ hstep bs.length).trans hrun, ?_, ?_⟩
    · rw [hline, heffect.line]
      rfl
    · rw [hlog, heffect.log, heffect.clock, heffect.line, List.append_assoc]
      rfl

/-- A symbol whose pattern is the micro-operations of the beats `bs`, from its start, records their waveform. -/
theorem run_of_symbol {s : State} {p : Profile} {d : Bool} {bs : List Beat} {d1 d2 : PinDraw}
    (h : AtSymbolStart s p d (bs.map Beat.edges) d1 d2) (hcodes : pattern p d = bs.map Beat.code)
    (hdraws : bs.filterMap Beat.draw? = [d1, d2]) :
    ∃ t, core.run bs.length s = .next t ∧ t.line = lineAfter bs s.line
      ∧ t.log = s.log ++ waveform bs s.clock s.line := by
  obtain ⟨-, -, hdata, -⟩ := (State.inRange_encodeByte h.phase).mp h.inv.range
  obtain ⟨v, hv⟩ := Option.isSome_iff_exists.mp hdata
  have hbit : dataBit v = d := by simpa [hv] using h.bit
  have hleft : (pattern s.cfg.profile (dataBit v)).drop 0 = bs.map Beat.code := by
    rw [h.profile, hbit, hcodes, List.drop_zero]
  exact run_of_beats bs ⟨h.silent, h.fresh, h.none, h.latch, h.sure, h.ticking, hdraws ▸ h.pins⟩
    fun _ => ⟨h.phase, h.inv.range, v, 0#3, hv, h.start, hleft⟩

/-- Settles O17: the beats of `010020`. -/
theorem bit1NormalWaveform : Obligations.Bit1NormalWaveform := fun _ d1 d2 h =>
  run_of_symbol (bs := [.wait, .pin .high d1, .wait, .wait, .pin .low d2, .wait]) h rfl rfl

/-- Settles O18: the beats of `010200`. -/
theorem bit0NormalWaveform : Obligations.Bit0NormalWaveform := fun _ d1 d2 h =>
  run_of_symbol (bs := [.wait, .pin .high d1, .wait, .pin .low d2, .wait, .wait]) h rfl rfl

/-- Settles O19: the beats of `01002`. -/
theorem bit1SlowWaveform : Obligations.Bit1SlowWaveform := fun _ d1 d2 h =>
  run_of_symbol (bs := [.wait, .pin .high d1, .wait, .wait, .pin .low d2]) h rfl rfl

/-- Settles O20: the beats of `01200`. -/
theorem bit0SlowWaveform : Obligations.Bit0SlowWaveform := fun _ d1 d2 h =>
  run_of_symbol (bs := [.wait, .pin .high d1, .pin .low d2, .wait, .wait]) h rfl rfl

/-! ### A wait without a tick -/

/-- The step of a running write at a wait that its poll does not end is that one poll, in every phase that waits:
the position is held (R48, R62 to R64). -/
theorem step_of_wait_in_progress {s : State} (hr : s.inRange = true) (hq : s.phase.quiet = false)
    (he : s.hostEager = false) (hdue : s.waitDue = true) (hw : s.tickEdges.waitEnds = false) :
    step s = .next s.tickEdges.waitTick := by
  obtain ⟨-, -, -, -, -, halign, -, hgap, -⟩ := positionNamesOperation s.tickEdges
  have hwaiting : s.tickEdges.waitTick.waiting = true := by simp [hw]
  cases hp : s.phase with
  | uninit | idle => simp [hp, Phase.quiet] at hq
  | fetch => simp [State.waitDue, hp] at hdue
  | alignTick =>
    simp only [step, halign he hp]
    exact if_pos hwaiting
  | resetGap =>
    obtain ⟨n, hn, -⟩ := (State.inRange_resetGap hp).mp hr
    have hlt : n.toNat < 160 := by simpa [State.waitDue, hp, hn, Config.gapTicks] using hdue
    simp only [step, hgap he hp n hn hlt]
    exact if_pos hwaiting
  | encodeByte =>
    obtain ⟨-, -, hdata, -, -, k, hk, -⟩ := (State.inRange_encodeByte hp).mp hr
    obtain ⟨d, hd⟩ := Option.isSome_iff_exists.mp hdata
    have hc : (pattern s.cfg.profile (dataBit d))[k.toNat]? = some 0#2 := by
      simpa [State.waitDue_encodeByte hp hd hk] using hdue
    have hheld : holdsAfter 0#2 s.tickEdges := ⟨rfl, hwaiting⟩
    rw [step_of_encodeByte hp he hd, s.tickEdges.encodeStep_eq _ hk hc (by decide),
      if_pos ((State.held_iff _ _).mpr hheld)]
    rfl

/-- Settles O38: without edge, pending tick and ERROR the poll answers NOT_YET, which the last clause of O9
describes. -/
theorem waitWithoutTickIsStuck : Obligations.WaitWithoutTickIsStuck := by
  intro s hi hq he hdue hedges hpending hfails
  obtain ⟨-, -, -, hnotYet⟩ := waitTickPolls s.tickEdges
  have hfails' : s.tickEdges.pollFailsNow = false := hfails
  have hcounts : s.tickEdges.tickCounts = false := by simp [State.tickCounts, hpending, hedges]
  have hends : s.tickEdges.waitEnds = false := by simp [State.waitEnds, hfails', hcounts]
  refine (step_of_wait_in_progress hi.range hq he hdue hends).trans ((hnotYet hfails' hcounts).trans ?_)
  simp [State.tickEdges, hedges, hpending]

end Sys2Proof.Machine
end

section
/-! PROOFS. The family of spec/41_frame_sequencer.md: one step of each row of the step table (R61 to R65). -/

namespace Sys2Proof.Machine

/-! ### The elements, and the end of a color -/

/-- Settles O21: COLOR is the FETCH row for a color, as `execColor` writes it. -/
theorem colorLatchesChannels : Obligations.ColorLatchesChannels := fun _ _ _ _ => rfl

/-- Settles O22: END is the FETCH row for the end of the sequence, as `execEndSeq` writes it. -/
theorem endStartsGap : Obligations.EndStartsGap := fun _ => rfl

/-- The end of the blue byte is the end of the color (R63). -/
theorem State.byteDone_blue {s : State} (hc : s.ch = some 2#2) : s.byteDone = .next { s with phase := .fetch } := by
  simp [State.byteDone, hc, moreChannels]

/-- Settles O15: at the last position of bit 7 the byte is done, and after blue no channel is left. -/
theorem colorEndAsksNextItem : Obligations.ColorEndAsksNextItem := by
  intro i p hmem s k c d hk hlast hc hd hn hch
  refine ⟨exec_symbol_held hmem hk hc, fun hh => ?_⟩
  rw [exec_symbol_last hmem hk hc hh hlast,
    State.symbolDone_byte ((afterMicroOp_data c s).trans hd) ((afterMicroOp_bit c s).trans hn),
    State.byteDone_blue (by simpa using hch)]
  rfl

/-! ### The waits of a write and its completion -/

section Waits

variable {s u : State}

/-- The ALIGN_TICK step is one poll of its wait, and the update of R62 once the wait has ended. -/
theorem step_of_alignTick (hu : s.tickEdges = u) (hp : u.phase = .alignTick) (he : u.hostEager = false) :
    step s = if u.waitTick.waiting then .next u.waitTick else u.waitTick.startColor := by
  obtain ⟨-, -, -, -, -, halign, -⟩ := positionNamesOperation u
  simp only [step, hu, halign he hp]
  rfl

/-- The RESET_GAP step below 160 is one poll of its wait, and the update of R64 once the wait has ended. -/
theorem step_of_gapWait {n : BitVec 8} (hu : s.tickEdges = u) (hp : u.phase = .resetGap)
    (he : u.hostEager = false) (hg : u.gap = some n) (hlt : n.toNat < 160) :
    step s = if u.waitTick.waiting then .next u.waitTick else u.waitTick.countGap := by
  obtain ⟨-, -, -, -, -, -, -, hgap, -⟩ := positionNamesOperation u
  simp only [step, hu, hgap he hp n hg hlt]
  rfl

end Waits

/-- Settles O34: the step is a poll of the alignment wait, which ends or goes on as `waitEnds` says. -/
theorem alignStepLoadsGreen : Obligations.AlignStepLoadsGreen := by
  intro s u v hu hp he hg
  rw [step_of_alignTick hu hp he]
  refine ⟨fun hw => if_pos (by simp [hw]), fun hw => ?_⟩
  rw [if_neg (by simp [hw])]
  exact State.startColor_some ((State.waitTick_g u).trans hg)

/-- Settles O35: the step is a poll of a gap wait, which ends or goes on as `waitEnds` says. -/
theorem gapStepCountsWaits : Obligations.GapStepCountsWaits := by
  intro s u n hu hp he hg hlt
  rw [step_of_gapWait hu hp he hg hlt]
  refine ⟨fun hw => if_pos (by simp [hw]), fun hw => ?_⟩
  rw [if_neg (by simp [hw])]
  simp [State.countGap, hg]

/-- Settles O36: at gap 160 the position names the completion step. -/
theorem completionReportsSuccess : Obligations.CompletionReportsSuccess := by
  intro s u hu hp he hg
  obtain ⟨-, -, -, -, -, -, -, -, hfinish⟩ := positionNamesOperation u
  simp only [step, hu, hfinish he hp hg]
  rfl

/-- No way of a step from the reset gap is a pin command (R64). -/
theorem Moves.line_pins_of_resetGap {u t : State} (h : Moves u t) (hp : u.phase = .resetGap) :
    t.line = u.line ∧ t.pins = u.pins := by
  cases h with
  | hold | nop | refuse | complete => exact ⟨rfl, rfl⟩
  | gapHold | gap => exact ⟨State.waitTick_line u, State.waitTick_pins u⟩
  | _ => simp_all

/-- Settles O51: the tick source leaves the line alone, and so does each way of a step from the gap. -/
theorem gapKeepsLine : Obligations.GapKeepsLine := fun _ _ hp h => (step_moves h).line_pins_of_resetGap hp

end Sys2Proof.Machine
end

section
/-! PROOFS. The family of spec/41_frame_sequencer.md: the events of a whole frame (R70, R71) and the balance of
writes and their completions (R74). -/

namespace Sys2Proof.Machine

/-! ### The events of a frame -/

theorem closingEvents_eq :
    closingEvents = .fetch .endSeq :: (List.replicate 160 (Event.wait .tick) ++ [.done .ok]) := by
  simp [closingEvents, gapCodes, waitCodes, codeEvent, Config.gapTicks]

/-- Settles O56: without a color the frame is its closing events. -/
theorem emptyFrameIsGapOnly : Obligations.EmptyFrameIsGapOnly := fun _ => closingEvents_eq

/-- The events of one bit symbol (R51). -/
def symbolEvents (p : Profile) (d : Bool) : List Event := (pattern p d).map codeEvent

/-- A color is its FETCH, its alignment wait and its 24 symbols (R60). -/
theorem colorEvents_eq (p : Profile) (c : Byte × Byte × Byte) :
    colorEvents p c = .fetch (.color c.1 c.2.1 c.2.2) :: .wait .tick
      :: (colorBits c.1 c.2.1 c.2.2).flatMap (symbolEvents p) := by
  rw [colorEvents, colorCodes_eq, List.map_cons, List.map_flatMap]
  rfl

/-- One SET_HIGH and one SET_LOW, as the trace shows them. -/
def pinPair : List Event := [.pin .high .ok, .pin .low .ok]

theorem filter_isPin_symbolEvents (p : Profile) (d : Bool) : (symbolEvents p d).filter isPin = pinPair := by
  cases p <;> cases d <;> decide

/-- Where every part of a sequence has the same `n` pairs, the whole has `n` for each part. -/
theorem filter_isPin_flatMap {α : Type} {f : α → List Event} {n : Nat}
    (h : ∀ a, (f a).filter isPin = (List.replicate n pinPair).flatten) (as : List α) :
    (as.flatMap f).filter isPin = (List.replicate (n * as.length) pinPair).flatten := by
  induction as with
  | nil => rfl
  | cons a as ih =>
    rw [List.flatMap_cons, List.filter_append, h, ih, List.length_cons, Nat.mul_succ, Nat.add_comm,
      List.replicate_add, List.flatten_append]

theorem filter_isPin_colorEvents (p : Profile) (c : Byte × Byte × Byte) :
    (colorEvents p c).filter isPin = (List.replicate 24 pinPair).flatten := by
  rw [colorEvents_eq]
  exact filter_isPin_flatMap (n := 1) (filter_isPin_symbolEvents p) (colorBits c.1 c.2.1 c.2.2)

theorem filter_isPin_closingEvents : closingEvents.filter isPin = [] := by
  simp [closingEvents_eq, isPin]

/-- Settles O55: each symbol is one pair of pin commands, each color 24 symbols, and the gap has none. -/
theorem framePinsAlternate : Obligations.FramePinsAlternate := by
  intro p colors
  rw [frameEvents, List.filter_append, filter_isPin_closingEvents, List.append_nil]
  exact filter_isPin_flatMap (filter_isPin_colorEvents p) colors

/-! ### How many events a frame has -/

section Counts

variable {f : Event → Bool}

theorem countEvents_append (es es' : List Event) :
    countEvents f (es ++ es') = countEvents f es + countEvents f es' := by
  simp [countEvents]

theorem countEvents_cons (e : Event) (es : List Event) :
    countEvents f (e :: es) = (f e).toNat + countEvents f es := by
  cases h : f e <;> simp [countEvents, h, Nat.add_comm]

theorem countEvents_replicate (n : Nat) (e : Event) :
    countEvents f (List.replicate n e) = n * (f e).toNat := by
  cases h : f e <;> simp [countEvents, h]

/-- Where every part of a sequence has `n` of the events, the whole has `n` for each part. -/
theorem countEvents_flatMap {α : Type} {g : α → List Event} {n : Nat} (h : ∀ a, countEvents f (g a) = n)
    (as : List α) : countEvents f (as.flatMap g) = as.length * n := by
  induction as with
  | nil => simp [countEvents]
  | cons a as ih => rw [List.flatMap_cons, countEvents_append, h, ih, List.length_cons, Nat.succ_mul, Nat.add_comm]

/-- The events of a frame are those of its colors, all alike, and of its end. -/
theorem countEvents_frameEvents {p : Profile} {n : Nat} (h : ∀ c, countEvents f (colorEvents p c) = n)
    (colors : List (Byte × Byte × Byte)) :
    countEvents f (frameEvents p colors) = colors.length * n + countEvents f closingEvents := by
  rw [frameEvents, countEvents_append, countEvents_flatMap h]

/-- The events of a color are its FETCH, its alignment wait and those of 24 symbols, all alike (R70). -/
theorem countEvents_colorEvents {p : Profile} {n : Nat} (hfetch : ∀ e, f (.fetch e) = f (.fetch .endSeq))
    (h : ∀ d, countEvents f (symbolEvents p d) = n) (c : Byte × Byte × Byte) :
    countEvents f (colorEvents p c) = (f (.fetch .endSeq)).toNat + ((f (.wait .tick)).toNat + 24 * n) := by
  rw [colorEvents_eq, countEvents_cons, countEvents_cons, countEvents_flatMap h, hfetch]
  rfl

theorem countEvents_closingEvents :
    countEvents f closingEvents
      = (f (.fetch .endSeq)).toNat + (160 * (f (.wait .tick)).toNat + (f (.done .ok)).toNat) := by
  rw [closingEvents_eq, countEvents_cons, countEvents_append, countEvents_replicate, countEvents_cons]
  rfl

end Counts

/-- A symbol has the waits of R56 and neither a FETCH nor a DONE. -/
theorem countEvents_symbolEvents (p : Profile) (d : Bool) :
    countEvents isWait (symbolEvents p d) = Config.waitsPerBit p
      ∧ countEvents isFetch (symbolEvents p d) = 0 ∧ countEvents isDone (symbolEvents p d) = 0 := by
  cases p <;> cases d <;> decide

/-- Settles O54: the waits, fetches and DONEs are those of each color and of the end; the pin commands are the
pairs of O55. -/
theorem frameEventCounts : Obligations.FrameEventCounts := by
  intro p colors
  refine ⟨?waits, ?pins, ?fetches, ?dones⟩
  case waits =>
    rw [countEvents_frameEvents (countEvents_colorEvents (fun _ => rfl) fun d => (countEvents_symbolEvents p d).1),
      countEvents_closingEvents]
    simp [isWait]
  case pins =>
    rw [countEvents, framePinsAlternate p colors, List.length_flatten, List.map_replicate, List.sum_replicate]
    simp only [List.length_cons, List.length_nil, smul_eq_mul]
    omega
  case fetches =>
    rw [countEvents_frameEvents (countEvents_colorEvents (fun _ => rfl) fun d => (countEvents_symbolEvents p d).2.1),
      countEvents_closingEvents]
    simp [isFetch]
  case dones =>
    rw [countEvents_frameEvents (countEvents_colorEvents (fun _ => rfl) fun d => (countEvents_symbolEvents p d).2.2),
      countEvents_closingEvents]
    simp [isDone]

/-- Settles O53: an IDLE block accepts WRITE, and in FETCH the plan is the frame of the item source. -/
theorem writeBeginsWithFrame : Obligations.WriteBeginsWithFrame := by
  intro s t hp h
  have hwrite : exec .write s = .next { s.record .cmdWrite with rest := s.offer, phase := .fetch } := if_pos hp
  cases hwrite.symm.trans h
  exact ⟨rfl, rfl, fun _ => rfl⟩

/-! ### Writes and their completions -/

/-- A step that records `e` keeps the balance of writes and completions when it begins or ends a write exactly
as `e` says. -/
theorem State.WritesBalance.of_record {u t : State} {e : Event} (hb : u.WritesBalance)
    (hlog : t.log = u.log ++ [entry t.clock e t.line])
    (hphase : (e == .cmdWrite).toNat + (if u.phase.quiet then 0 else 1)
      = (isDone e).toNat + (if t.phase.quiet then 0 else 1)) :
    t.WritesBalance := by
  have hevents : t.events = u.events ++ [e] := by simp [State.events, hlog, entry]
  have hone (f : Event → Bool) : countEvents f [e] = (f e).toNat := countEvents_cons e []
  unfold State.WritesBalance at hb ⊢
  rw [hevents, countEvents_append, countEvents_append, hone, hone]
  omega

/-- Settles O45: only CMD(WRITE) begins a write and only DONE ends one, and each of them is recorded as it does
so. -/
theorem everyWriteEndsWithDone : Obligations.EveryWriteEndsWithDone := by
  intro s t hs h
  have hb : s.tickEdges.WritesBalance := hs
  cases step_logMove h with
  | silent hlog _ hq =>
    unfold State.WritesBalance State.events at hb ⊢
    rwa [hlog, hq]
  | micro c ev hc hlog _ hev hq =>
    obtain ⟨how, rfl, -⟩ | ⟨level, a, rfl, -⟩ := hev
    · exact hb.of_record hlog (by rw [hq]; rfl)
    · exact hb.of_record hlog (by rw [hq]; rfl)
  | write hlog _ hu ht => exact hb.of_record hlog (by rw [hu, ht]; rfl)
  | item e hlog _ hu ht => exact hb.of_record hlog (by rw [hu, ht]; rfl)
  | done hlog _ hu ht => exact hb.of_record hlog (by rw [hu, ht]; rfl)
  | new hlog _ hq => exact hb.of_record hlog (by rw [hq]; rfl)

end Sys2Proof.Machine
end

section
/-! PROOFS. The family of spec/41_frame_sequencer.md: the step table performs the procedure of a write (R60 to
R65). -/

namespace Sys2Proof.Machine

/-! ### What is left of a byte and of a color -/

/-- The shift sends bit 7 out and a zero in (R41). -/
theorem byteBits_shiftByte (d : Byte) : byteBits (shiftByte d) = (byteBits d).tail ++ [false] := by
  simp [byteBits, shiftByte]

theorem byteBits_eq_cons (d : Byte) : byteBits d = dataBit d :: (byteBits d).tail := rfl

section ByteLeft

variable {p : Profile} {d : Byte} {n k : BitVec 3} {c : Code2}

/-- At the start of a symbol the symbols of all the bits left are to come (R58). -/
theorem byteLeft_start (p : Profile) (d : Byte) (n : BitVec 3) :
    byteLeft p d n 0#3 = ((byteBits d).take (8 - n.toNat)).flatMap (pattern p) := by
  obtain ⟨m, hm⟩ : ∃ m, 8 - n.toNat = m + 1 := ⟨7 - n.toNat, by omega⟩
  rw [byteLeft, hm, byteBits_eq_cons, List.take_succ_cons, List.flatMap_cons]
  rfl

/-- The first of what is left is the micro-operation at the position (R63). -/
theorem byteLeft_eq_cons (hc : (pattern p (dataBit d))[k.toNat]? = some c) :
    byteLeft p d n k = c :: ((pattern p (dataBit d)).drop (k.toNat + 1)
      ++ (((byteBits d).take (8 - n.toNat)).drop 1).flatMap (pattern p)) := by
  obtain ⟨hlt, rfl⟩ := List.getElem?_eq_some_iff.mp hc
  rw [byteLeft, List.drop_eq_getElem_cons hlt, List.cons_append]

theorem byteLeft_next (hc : (pattern p (dataBit d))[k.toNat]? = some c)
    (hlt : k.toNat + 1 < Config.symbolLength p) : byteLeft p d n k = c :: byteLeft p d n (k + 1#3) := by
  rw [byteLeft_eq_cons hc, byteLeft, toNat_nextStep hlt]

/-- At the end of a symbol only the symbols of the later bits are left. -/
theorem byteLeft_last (hc : (pattern p (dataBit d))[k.toNat]? = some c)
    (hlast : k.toNat + 1 = Config.symbolLength p) :
    byteLeft p d n k = c :: (((byteBits d).take (8 - n.toNat)).drop 1).flatMap (pattern p) := by
  rw [byteLeft_eq_cons hc, hlast, ← pattern_length p (dataBit d), List.drop_length, List.nil_append]

/-- The later bits of a byte are the bits of the shifted byte (R58, R63). -/
theorem byteLeft_bit (hc : (pattern p (dataBit d))[k.toNat]? = some c)
    (hlast : k.toNat + 1 = Config.symbolLength p) (hn : n.toNat < 7) :
    byteLeft p d n k = c :: byteLeft p (shiftByte d) (n + 1#3) 0#3 := by
  have hsucc : (n + 1#3).toNat = n.toNat + 1 := by
    simp only [BitVec.toNat_add, BitVec.toNat_ofNat]
    omega
  have hlength : (byteBits d).tail.length = 7 := rfl
  rw [byteLeft_last hc hlast, byteLeft_start, hsucc, byteBits_shiftByte, List.drop_take, List.drop_one,
    List.take_append_of_le_length (by omega), Nat.sub_sub]

/-- At bit 7 the byte ends with its symbol. -/
theorem byteLeft_byte (hc : (pattern p (dataBit d))[k.toNat]? = some c)
    (hlast : k.toNat + 1 = Config.symbolLength p) : byteLeft p d 7#3 k = [c] := byteLeft_last hc hlast

end ByteLeft

theorem byteLeft_whole (p : Profile) (v : Byte) : byteLeft p v 0#3 0#3 = byteCodes p v := byteLeft_start p v 0#3

/-- The next channel's byte is the first of the channels left (R68). -/
theorem channelsLeft_next {p : Profile} {h : BitVec 2} {r b v : Byte} (hv : (h = 0#2 ∧ r = v) ∨ (h = 1#2 ∧ b = v)) :
    channelsLeft p h r b = byteCodes p v ++ channelsLeft p (h + 1#2) r b := by
  obtain ⟨rfl, rfl⟩ | ⟨rfl, rfl⟩ := hv
  · rfl
  · exact (List.append_nil _).symm

theorem channelsLeft_blue {p : Profile} {h : BitVec 2} {r b : Byte} (hge : 2 ≤ h.toNat) :
    channelsLeft p h r b = [] := by
  rcases code2_cases h with rfl | rfl | rfl | rfl
  · exact absurd hge (by decide)
  · exact absurd hge (by decide)
  · rfl
  · rfl

/-! ### What is left of a write, phase by phase -/

/-- The frame of the elements left at the item source. -/
def State.ahead (s : State) : List Event := frameEvents s.cfg.profile (streamColors s.rest.words)

section Plan

variable {s : State}

theorem State.plan_fetch (hp : s.phase = .fetch) : s.plan = s.ahead := by
  simp only [State.plan, hp, State.ahead]

theorem State.plan_alignTick (hp : s.phase = .alignTick) :
    s.plan = (colorCodes s.cfg.profile (s.r.getD 0#8) (s.g.getD 0#8) (s.b.getD 0#8)).map codeEvent ++ s.ahead := by
  simp only [State.plan, hp, State.ahead]

theorem State.plan_encodeByte (hp : s.phase = .encodeByte) :
    s.plan = (byteLeft s.cfg.profile (s.data.getD 0#8) (s.bit.getD 0#3) (s.step.getD 0#3)
      ++ channelsLeft s.cfg.profile (s.ch.getD 0#2) (s.r.getD 0#8) (s.b.getD 0#8)).map codeEvent ++ s.ahead := by
  simp only [State.plan, hp, State.ahead]

theorem State.plan_resetGap {n : BitVec 8} (hp : s.phase = .resetGap) (hg : s.gap = some n) :
    s.plan = List.replicate (160 - n.toNat) (.wait .tick) ++ [.done .ok] := by
  simp [State.plan, hp, hg, waitCodes, codeEvent, Config.gapTicks]

end Plan

theorem frameEvents_cons (p : Profile) (c : Byte × Byte × Byte) (cs : List (Byte × Byte × Byte)) :
    frameEvents p (c :: cs)
      = .fetch (.color c.1 c.2.1 c.2.2) :: ((colorCodes p c.1 c.2.1 c.2.2).map codeEvent ++ frameEvents p cs) := by
  simp [frameEvents, colorEvents]

theorem streamColors_color {w : ElementWord} (hw : w[24] = false) (ws : List ElementWord) :
    streamColors (w :: ws)
      = (w.extractLsb' 16 8, w.extractLsb' 8 8, w.extractLsb' 0 8) :: streamColors ws := by
  simp [streamColors, hw]

theorem streamColors_endSeq {w : ElementWord} (hw : w[24] = true) (ws : List ElementWord) :
    streamColors (w :: ws) = [] := by
  simp [streamColors, hw]

/-! ### Every step of a running write keeps to its plan -/

/-- A step keeps to the plan: it records the next event of what is left of the write, or no event, and then as
much is left as before. -/
inductive KeepsPlan (u t : State) : Prop where
  | holds : t.log = u.log → t.plan = u.plan → KeepsPlan u t
  | records (e : Entry) : t.log = u.log ++ [e] → u.plan = eventShape e.event :: t.plan → KeepsPlan u t

/-- A step that performs a micro-operation which is next in the plan keeps to the plan. -/
theorem keepsPlan_of_microOp {u t : State} {c : Code2} (hc : c ≠ 3#2) (hh : ¬ holdsAfter c u)
    (hlog : t.log = (afterMicroOp c u).log) (hplan : u.plan = codeEvent c :: t.plan) : KeepsPlan u t := by
  rcases afterMicroOp_log hc u with ⟨hheld, -⟩ | ⟨-, e, he, -, hlog'⟩
  · exact absurd hheld hh
  · exact .records e (hlog.trans hlog') (by rw [he, hplan])

/-- While its wait is in progress a micro-operation leaves the plan as it is. -/
theorem keepsPlan_of_held {u : State} {c : Code2} (hh : holdsAfter c u) : KeepsPlan u (afterMicroOp c u) :=
  .holds (afterMicroOp_held hh).1 (by simp [State.plan])

theorem holdsAfter_wait (u : State) : holdsAfter 0#2 u ↔ u.waitTick.waiting = true :=
  ⟨fun h => h.2, fun h => ⟨rfl, h⟩⟩

/-- Every way of a step of a running write whose item source ends keeps to the plan. -/
theorem Moves.keepsPlan {u t : State} (h : Moves u t) (hq : u.phase.quiet = false)
    (hfinite : u.rest.endless = false) : KeepsPlan u t := by
  have hcode : ∀ {d : Byte} {k : BitVec 3} {c : Code2},
      (pattern u.cfg.profile (dataBit d))[k.toNat]? = some c → c ≠ 3#2 :=
    fun hc => pattern_codes _ _ _ (List.mem_of_getElem? hc)
  have hdone : u.waitTick.waiting = false → ¬ holdsAfter 0#2 u := fun hw hh =>
    nomatch hw.symm.trans ((holdsAfter_wait u).mp hh)
  cases h with
  | hold | itemHold | nop | refuse => exact .holds rfl rfl
  | discard | write | new | construct | listingHold | listing => simp_all [Phase.quiet]
  | color w rest colors hp ht hr =>
    obtain ⟨ws, hw, rfl, -⟩ | ⟨-, hendless, -⟩ := hr
    · refine .records _ rfl ?_
      rw [State.plan_fetch hp, State.ahead, hw, streamColors_color ht, frameEvents_cons]
      rfl
    · simp [hfinite] at hendless
  | endSeq rest hp hr =>
    refine .records _ rfl ?_
    have hnone : streamColors u.rest.words = [] := by
      obtain ⟨w, ws, hw, ht, -⟩ | ⟨hw, -⟩ := hr
      · rw [hw, streamColors_endSeq ht]
      · rw [hw]
        rfl
    rw [State.plan_fetch hp, State.ahead, hnone, emptyFrameIsGapOnly, State.plan_resetGap rfl rfl]
    rfl
  | alignHold hp hw => exact keepsPlan_of_held ((holdsAfter_wait u).mpr hw)
  | align v hp hw hg =>
    refine keepsPlan_of_microOp (by decide) (hdone hw) rfl ?_
    rw [State.plan_alignTick hp, State.plan_encodeByte rfl]
    simp [colorCodes, byteLeft_whole, channelsLeft, hg, State.ahead]
  | symbolHold d k c hp hd hk hc hh => exact keepsPlan_of_held hh
  | symbolNext d k c hp hd hk hc hh hlt =>
    refine keepsPlan_of_microOp (hcode hc) hh rfl ?_
    rw [State.plan_encodeByte hp, State.plan_encodeByte (by simpa using hp)]
    simp [hd, hk, byteLeft_next hc hlt, State.ahead]
  | symbolBit d k n c hp hd hk hc hh hlast hn hlt =>
    refine keepsPlan_of_microOp (hcode hc) hh rfl ?_
    rw [State.plan_encodeByte hp, State.plan_encodeByte (by simpa using hp)]
    simp [hd, hk, hn, byteLeft_bit hc hlast hlt, State.ahead]
  | symbolByte d v k n c h hp hd hk hc hh hlast hn h7 hch hv =>
    have hnext : (h = 0#2 ∧ u.r.getD 0#8 = v) ∨ (h = 1#2 ∧ u.b.getD 0#8 = v) :=
      hv.imp (.imp_right fun hr => by simp [hr]) (.imp_right fun hb => by simp [hb])
    refine keepsPlan_of_microOp (hcode hc) hh rfl ?_
    rw [State.plan_encodeByte hp, State.plan_encodeByte (by simpa using hp)]
    simp [hd, hk, hn, h7, hch, byteLeft_byte hc hlast, byteLeft_whole, channelsLeft_next hnext, State.ahead]
  | symbolColor d k n c h hp hd hk hc hh hlast hn h7 hch hge =>
    refine keepsPlan_of_microOp (hcode hc) hh rfl ?_
    rw [State.plan_encodeByte hp, State.plan_fetch rfl]
    simp [hd, hk, hn, h7, hch, byteLeft_byte hc hlast, channelsLeft_blue hge, State.ahead]
  | gapHold n hp hg hlt hw => exact keepsPlan_of_held ((holdsAfter_wait u).mpr hw)
  | gap n hp hg hlt hw =>
    have hsucc : 160 - n.toNat = 160 - (n + 1#8).toNat + 1 := by
      simp only [BitVec.toNat_add, BitVec.toNat_ofNat]
      omega
    refine keepsPlan_of_microOp (by decide) (hdone hw) rfl ?_
    rw [State.plan_resetGap hp hg, State.plan_resetGap (by simpa using hp) rfl, hsucc]
    rfl
  | complete n hp hg hn =>
    refine .records _ rfl ?_
    rw [State.plan_resetGap hp hg, hn]
    rfl

theorem KeepsPlan.shapes_append_plan {u t : State} (h : KeepsPlan u t) :
    t.shapes ++ t.plan = u.shapes ++ u.plan := by
  cases h with
  | holds hlog hplan => rw [State.shapes, hlog, hplan, State.shapes]
  | records e hlog hplan => simp [State.shapes, hlog, hplan]

/-- Settles O52: the tick source touches neither the trace nor the plan, and each way of a step keeps to the
plan. -/
theorem runningWriteFollowsPlan : Obligations.RunningWriteFollowsPlan := fun _ _ _ hq hfinite h =>
  ((step_moves h).keepsPlan hq hfinite).shapes_append_plan

end Sys2Proof.Machine
end

section
/-! PROOFS. The family of spec/41_frame_sequencer.md: a write that is served completes (R74). -/

namespace Sys2Proof.Machine

/-! ### A step that is not held records an event -/

/-- The step has a next state, and it records one event. -/
def StepRecords (s : State) : Prop := ∃ t e, step s = .next t ∧ t.log = s.log ++ [e]

section Records

variable {s : State}

theorem records_of_fetch (hp : s.phase = .fetch) (he : s.hostEager = false)
    (hready : s.tickEdges.itemReadyNow = true) : StepRecords s := by
  obtain ⟨-, hcolor, hend, hspent, hendless⟩ := fetchStepTakesNextElement s _ rfl hp he
  cases hw : s.rest.words with
  | cons w ws =>
    cases ht : w[24] with
    | false => exact ⟨_, _, hcolor hready w ws hw ht, rfl⟩
    | true => exact ⟨_, _, hend hready w ws hw ht, rfl⟩
  | nil =>
    cases hf : s.rest.endless with
    | false => exact ⟨_, _, hspent hready hw hf, rfl⟩
    | true =>
      obtain ⟨r, g, b, hstep⟩ := hendless hready hw hf
      exact ⟨_, _, hstep, rfl⟩

/-- A wait that ends records one WAIT (R48). -/
theorem State.waitTick_log_of_ends {u : State} (hw : u.waitEnds = true) : ∃ e, u.waitTick.log = u.log ++ [e] := by
  rw [State.waitTick_eq, if_pos hw]
  exact ⟨_, rfl⟩

theorem records_of_alignTick (hp : s.phase = .alignTick) (hr : s.inRange = true) (he : s.hostEager = false)
    (hw : s.tickEdges.waitEnds = true) : StepRecords s := by
  obtain ⟨-, hg, -⟩ := (State.inRange_alignTick hp).mp hr
  obtain ⟨v, hg⟩ := Option.isSome_iff_exists.mp hg
  obtain ⟨e, hlog⟩ := State.waitTick_log_of_ends hw
  exact ⟨_, e, (alignStepLoadsGreen s _ v rfl hp he hg).2 hw, hlog⟩

theorem records_of_encodeByte (hp : s.phase = .encodeByte) (hr : s.inRange = true) (he : s.hostEager = false)
    (hw : s.waitDue = true → s.tickEdges.waitEnds = true) : StepRecords s := by
  obtain ⟨-, -, hdata, -, -, k, hk, hlt⟩ := (State.inRange_encodeByte hp).mp hr
  obtain ⟨d, hd⟩ := Option.isSome_iff_exists.mp hdata
  rw [← pattern_length _ (dataBit d)] at hlt
  obtain ⟨c, hc⟩ : ∃ c, (pattern s.cfg.profile (dataBit d))[k.toNat]? = some c :=
    ⟨_, List.getElem?_eq_getElem hlt⟩
  have hh : ¬ holdsAfter c s.tickEdges := by
    rintro ⟨rfl, hheld⟩
    have hends := hw (by rw [State.waitDue_encodeByte hp hd hk, hc]; rfl)
    have hwaiting : s.tickEdges.waitTick.waiting = true := hheld
    simp [hends] at hwaiting
  have hin : s.InSymbol (c :: (pattern s.cfg.profile (dataBit d)).drop (k.toNat + 1)) := by
    refine ⟨hp, hr, d, k, hd, hk, ?_⟩
    rw [List.drop_eq_getElem?_toList_append, hc]
    rfl
  obtain ⟨q, hstep, -⟩ := step_of_inSymbol hin he hh
  rcases afterMicroOp_log (pattern_codes _ _ c (List.mem_of_getElem? hc)) s.tickEdges with
    ⟨hheld, -⟩ | ⟨-, e, -, -, hlog⟩
  · exact absurd hheld hh
  · exact ⟨_, e, hstep, hlog⟩

theorem records_of_resetGap (hp : s.phase = .resetGap) (hr : s.inRange = true) (he : s.hostEager = false)
    (hw : s.waitDue = true → s.tickEdges.waitEnds = true) : StepRecords s := by
  obtain ⟨n, hg, hle⟩ := (State.inRange_resetGap hp).mp hr
  by_cases hlt : n.toNat < 160
  · have hends := hw (State.waitDue_resetGap hp hg hlt)
    obtain ⟨e, hlog⟩ := State.waitTick_log_of_ends hends
    exact ⟨_, e, (gapStepCountsWaits s _ n rfl hp he hg hlt).2 hends, hlog⟩
  · obtain rfl : n = 160#8 := BitVec.eq_of_toNat_eq (show n.toNat = 160 by omega)
    exact ⟨_, _, completionReportsSuccess s _ rfl hp he hg, rfl⟩

/-- A step of a running write whose wait, if it stands at one, ends, and whose item source answers, records an
event. -/
theorem records_of_running (hr : s.inRange = true) (hq : s.phase.quiet = false) (he : s.hostEager = false)
    (hw : s.waitDue = true → s.tickEdges.waitEnds = true) (hready : s.tickEdges.itemReadyNow = true) :
    StepRecords s := by
  cases hp : s.phase with
  | uninit | idle => simp [hp, Phase.quiet] at hq
  | fetch => exact records_of_fetch hp he hready
  | alignTick => exact records_of_alignTick hp hr he (hw (by simp [State.waitDue, hp]))
  | encodeByte => exact records_of_encodeByte hp hr he hw
  | resetGap => exact records_of_resetGap hp hr he hw

end Records

/-! ### A served write -/

/-- Every way of a step uses one answer of the item source or none, and leaves the tick edges to come. -/
theorem Moves.served {u t : State} (h : Moves u t) :
    t.edges = u.edges ∧ (t.items = u.items ∨ t.items = u.items.pop) := by
  cases h <;> simp

/-- A step uses up one step's worth of service. -/
theorem served_of_step {s t : State} {n : Nat} (h : step s = .next t) (hs : s.Served (n + 1)) : t.Served n := by
  obtain ⟨⟨edges, hedges⟩, items, hitems⟩ := hs
  obtain ⟨hte, hti⟩ := (step_moves h).served
  refine ⟨⟨edges, ?_⟩, ?_⟩
  · rw [hte]
    simp [Draws.pop, hedges, List.replicate_succ]
  · rcases hti with hti | hti
    · exact ⟨true :: items, by rw [hti]; simp [hitems, List.replicate_succ']⟩
    · exact ⟨items, by rw [hti]; simp [Draws.pop, hitems, List.replicate_succ]⟩

/-- A running write whose item source ends, with nothing at the host port (R74). -/
structure State.Runs (s : State) : Prop where
  inv : s.Inv
  running : s.phase.quiet = false
  finite : s.rest.endless = false
  silent : s.host = []

theorem State.Runs.notEager {s : State} (h : s.Runs) : s.hostEager = false := by simp [State.hostEager, h.silent]

/-- The end of the write is always ahead. -/
theorem State.Runs.plan_ne_nil {s : State} (h : s.Runs) : s.plan ≠ [] := by
  cases hp : s.phase with
  | uninit | idle => exact absurd h.running (by simp [hp, Phase.quiet])
  | fetch | alignTick | encodeByte | resetGap => simp [State.plan, hp, frameEvents, closingEvents]

/-- With nothing at the host port a step of a running write leaves it running, or is its completion. -/
theorem Moves.runs {u t : State} (h : Moves u t) (hq : u.phase.quiet = false)
    (hfinite : u.rest.endless = false) (hhost : u.host = []) :
    t.host = [] ∧ t.rest.endless = false ∧ (t.phase.quiet = false ∨ t.phase = .idle) := by
  cases h with
  | color w rest colors hp ht hr =>
    obtain ⟨ws, -, rfl, -⟩ | ⟨-, hendless, -⟩ := hr
    · exact ⟨hhost, hfinite, .inl rfl⟩
    · simp [hfinite] at hendless
  | endSeq rest hp hr =>
    obtain ⟨w, ws, -, -, rfl⟩ | ⟨-, -, rfl⟩ := hr <;> exact ⟨hhost, hfinite, .inl rfl⟩
  | _ => simp_all [Phase.quiet]

theorem runs_of_step {s t : State} (hs : s.Runs) (h : step s = .next t) : t.Runs ∨ t.phase = .idle := by
  obtain ⟨hhost, hfinite, hrunning⟩ := (step_moves h).runs hs.running hs.finite hs.silent
  exact hrunning.imp_left fun hq => ⟨stepKeepsInvariant s t hs.inv h, hq, hfinite, hhost⟩

/-- A served step of a running write takes an event off the plan, or begins a wait that its first poll does not
end (R48). -/
theorem step_of_served {s : State} {n : Nat} (hs : s.Runs) (hserved : s.Served (n + 1)) :
    ∃ t, step s = .next t ∧ (t.plan.length + 1 = s.plan.length
      ∨ (t.plan = s.plan ∧ s.waiting = false ∧ t.waiting = true)) := by
  obtain ⟨⟨edges, hedges⟩, items, hitems⟩ := hserved
  have hpending : s.tickEdges.pending = true := by simp [State.edgesNow, Draws.peek, hedges, List.replicate_succ]
  have hready : s.tickEdges.itemReadyNow = true := by
    simp [State.itemReadyNow, Draws.peek, hitems, List.replicate_succ]
  by_cases hw : s.waitDue = true → s.tickEdges.waitEnds = true
  · obtain ⟨t, e, hstep, hlog⟩ := records_of_running hs.inv.range hs.running hs.notEager hw hready
    refine ⟨t, hstep, .inl ?_⟩
    cases (step_moves hstep).keepsPlan hs.running hs.finite with
    | holds hsame => simp [hlog] at hsame
    | records e' _ hplan => exact (congrArg List.length hplan).symm
  · obtain ⟨hdue, hends⟩ := Classical.not_imp.mp hw
    have hends : s.tickEdges.waitEnds = false := Bool.eq_false_iff.mpr hends
    have hwaiting : s.waiting = false := by
      simp only [State.waitEnds, State.tickCounts, hpending, Bool.true_and, Bool.or_eq_false_iff] at hends
      exact hends.2.2
    refine ⟨_, step_of_wait_in_progress hs.inv.range hs.running hs.notEager hdue hends,
      .inr ⟨by simp [State.plan], hwaiting, by simp [hends]⟩⟩

/-- A served write completes within two steps for each event left, one fewer inside a wait. -/
theorem run_of_served (n : Nat) {s : State} (hs : s.Runs) (hserved : s.Served n)
    (hn : 2 * s.plan.length ≤ n + s.waiting.toNat) :
    ∃ k t, k ≤ n ∧ core.run k s = .next t ∧ t.phase = .idle ∧ t.shapes = s.shapes ++ s.plan := by
  induction n generalizing s with
  | zero =>
    have hpos := List.length_pos_iff.mpr hs.plan_ne_nil
    have hle := s.waiting.toNat_le
    omega
  | succ n ih =>
    obtain ⟨t, hstep, hless⟩ := step_of_served hs hserved
    have hplan := runningWriteFollowsPlan s t hs.inv hs.running hs.finite hstep
    rcases runs_of_step hs hstep with ht | hidle
    · have hnt : 2 * t.plan.length ≤ n + t.waiting.toNat := by
        rcases hless with hlen | ⟨hsame, hfresh, hwaits⟩
        · have hle := s.waiting.toNat_le
          omega
        · rw [hsame, hwaits]
          rw [hfresh] at hn
          exact hn
      obtain ⟨k, v, hk, hrun, hv, hshapes⟩ := ih ht (served_of_step hstep hserved) hnt
      exact ⟨k + 1, v, by omega, (core_run_succ hstep k).trans hrun, hv, hshapes.trans hplan⟩
    · have hnil : t.plan = [] := by simp [State.plan, hidle]
      refine ⟨1, t, by omega, core_run_succ hstep 0, hidle, ?_⟩
      rw [← hplan, hnil, List.append_nil]

/-- Settles O57: two steps for each event left are enough, whether or not a wait is in progress. -/
theorem servedWriteCompletes : Obligations.ServedWriteCompletes := fun s hi hq hfinite hhost hserved =>
  run_of_served (2 * s.plan.length) ⟨hi, hq, hfinite, hhost⟩ hserved (Nat.le_add_right _ _)

end Sys2Proof.Machine
end

section
/-! PROOFS. The family of spec/42_driver.md: the host commands and their refusals (R77 to R80), the discard of a
block (R83), and what every step keeps of NEW, of the results and of the marks (R77, R82, R91). -/

namespace Sys2Proof.Machine

/-! ### The host commands -/

/-- WRITE in IDLE is accepted (R78). -/
theorem execWrite_accepted {s : State} (hp : s.phase = .idle) :
    exec .write s = .next { s.record .cmdWrite with rest := s.offer, phase := .fetch } := if_pos hp

/-- Settles O25: a block of another phase, or one that owns its tick source and line, is not unbuilt. -/
theorem newRefusedOutsideUninit : Obligations.NewRefusedOutsideUninit := by
  intro s hbuilt
  have hn : s.unbuilt = false := by
    rcases hbuilt with hp | ho
    · exact State.unbuilt_of_ne hp
    · simp [State.unbuilt, ho]
  exact execNew_refused hn

/-- Settles O26: the record of CMD(WRITE) joins the trace, and the sequence presented is the item source's. -/
theorem writeStartsFrame : Obligations.WriteStartsFrame := fun _ hp => execWrite_accepted hp

/-- Settles O27: the refusal adds its mark and writes nothing else. -/
theorem writeRefusedOutsideIdle : Obligations.WriteRefusedOutsideIdle := fun _ hp => execWrite_refused hp

/-- Settles O28: code 00 is NOP, whose meaning is the state as it is. -/
theorem nopChangesNothing : Obligations.NopChangesNothing := ⟨rfl, fun _ => rfl⟩

/-! ### The discard of a block -/

/-- An IDLE block serves the host port, whatever is presented there (R98). -/
theorem State.fetch_of_idle {u : State} (hp : u.phase = .idle) : u.fetch = u.fetchHost := by
  have hb : u.busy = false := by simp [State.busy, State.constructing, hp, Phase.quiet]
  have hn : u.unbuilt = false := State.unbuilt_of_ne (by simp [hp])
  exact State.fetch_of_not_busy hb (by simp [hn])

/-- Settles O30: an IDLE block serves the host port, which holds after it has let go of the ownership, and holds
a discarded block whatever command it presents. -/
theorem discardIsNoAction : Obligations.DiscardIsNoAction := by
  intro s u more hu hp
  refine ⟨fun hh => ?discard, fun c seq eager ho hh => ?discarded⟩
  case discard => simp only [step, hu, State.fetch_of_idle hp, State.fetchHost_discard hh, if_pos hp]
  case discarded =>
    have hd : u.discarded = true := by simp [State.discarded, hp, ho]
    simp only [step, hu, State.fetch_of_idle hp, State.fetchHost_hold (.inr ⟨hd, by simp [hh]⟩)]

/-! ### The refusal marks -/

/-- Only a refusal writes the marks, and it adds one at the end (R91). -/
theorem Moves.marks_eq {u t : State} (h : Moves u t) : t.marks = u.marks ∨ ∃ m : Mark, t.marks = u.marks ++ [m] := by
  cases h with
  | refuse c seq eager more m => exact .inr ⟨m, rfl⟩
  | _ => exact .inl (by simp)

/-- Settles O60: the tick source writes no mark, and each way of a step adds at most one. -/
theorem stepKeepsMarks : Obligations.StepKeepsMarks := fun _ _ h => (step_moves h).marks_eq

/-! ### The results of the writes -/

/-- Recording an event other than DONE(WRITE_FAILED) keeps the trace free of it. -/
theorem State.NoFailure.of_record {u t : State} {e : Event} (hu : u.NoFailure)
    (hlog : t.log = u.log ++ [entry t.clock e t.line]) (he : e ≠ .done .writeFailed) : t.NoFailure := by
  intro x hx
  rw [hlog, List.mem_append, List.mem_singleton] at hx
  rcases hx with hold | rfl
  · exact hu x hold
  · exact he

/-- Settles O46: the one DONE that a step records reports OK. -/
theorem noWriteReportsFailure : Obligations.NoWriteReportsFailure := by
  intro s t hs h
  have hu : s.tickEdges.NoFailure := hs
  cases step_logMove h with
  | silent hlog =>
    intro x hx
    exact hu x (hlog ▸ hx)
  | micro c ev hc hlog _ hev =>
    refine hu.of_record hlog ?_
    obtain ⟨how, rfl, -⟩ | ⟨level, a, rfl, -⟩ := hev <;> simp
  | write hlog | item e hlog | done hlog | new hlog => exact hu.of_record hlog (by simp)

/-! ### The one NEW of a block -/

/-- A step that records `e` keeps the count of NEW when it builds the block exactly if `e` is NEW. -/
theorem State.NewOnce.of_record {u t : State} {e : Event} (hu : u.NewOnce)
    (hlog : t.log = u.log ++ [entry t.clock e t.line])
    (hbuilt : (if u.unbuilt then 0 else 1) + (e == .new).toNat = if t.unbuilt then 0 else 1) : t.NewOnce := by
  have hevents : t.events = u.events ++ [e] := by simp [State.events, hlog, entry]
  have hone : countEvents (fun e => e == .new) [e] = (e == .new).toNat := countEvents_cons e []
  unfold State.NewOnce at hu ⊢
  rw [hevents, countEvents_append, hu, hone, hbuilt]

/-- A step of a built block that records another event than NEW leaves the block built. -/
theorem State.NewOnce.of_record_built {u t : State} {e : Event} (hu : u.NewOnce)
    (hlog : t.log = u.log ++ [entry t.clock e t.line]) (he : (e == .new) = false)
    (hpu : u.phase ≠ .uninit) (hpt : t.phase ≠ .uninit) : t.NewOnce :=
  hu.of_record hlog (by rw [State.unbuilt_of_ne hpu, State.unbuilt_of_ne hpt, he]; rfl)

/-- Of the ways of a step to change the trace, only the one that records NEW builds a block (R76), and none
unbuilds one. -/
theorem LogMove.keepsNewOnce {u t : State} (h : LogMove u t) (hu : u.NewOnce) : t.NewOnce := by
  cases h with
  | silent hlog _ _ hn =>
    unfold State.NewOnce State.events at hu ⊢
    rwa [hlog, hn]
  | micro c ev hc hlog _ hev _ hn =>
    have he : (ev == .new) = false := by obtain ⟨how, rfl, -⟩ | ⟨level, a, rfl, -⟩ := hev <;> rfl
    exact hu.of_record hlog (by rw [hn, he]; rfl)
  | write hlog _ hpu hpt => exact hu.of_record_built hlog rfl (by simp [hpu]) (by simp [hpt])
  | item e hlog _ hpu hq => exact hu.of_record_built hlog rfl (by simp [hpu]) (Phase.ne_uninit_of_busy hq)
  | done hlog _ hpu hpt => exact hu.of_record_built hlog rfl (by simp [hpu]) (by simp [hpt])
  | new hlog _ _ hnu hnt => exact hu.of_record hlog (by rw [hnu, hnt]; rfl)

/-- Settles O44: the tick source touches neither the trace nor the construction, and each way of a step keeps the
count. -/
theorem constructedAtMostOnce : Obligations.ConstructedAtMostOnce := fun _ _ hs h =>
  (step_logMove h).keepsNewOnce hs

end Sys2Proof.Machine
end

section
/-! PROOFS. The family of spec/60_exceptions.md: within the invariant no step stops (R85, R91), and an IDLE block
performs no event of its own (R98). -/

namespace Sys2Proof.Machine

/-! ### Every position of the invariant has a step -/

section HasNext

variable {s : State}

/-- A host command is its `exec`: the position has no update of its own. -/
theorem perform_host_of_exec {u t : State} {c : Code2} {i : Instr} (hd : decode (.h c) = .ok i)
    (hexec : exec i u = .next t) : u.perform .host (.h c) = .next t := by
  simp only [State.perform, hd, hexec]
  rfl

/-- Every host code has a next state: NOP is performed, WRITE and NEW are accepted or refused, and the
reserved code is refused (R76 to R81). -/
theorem perform_host_hasNext (u : State) (c : Code2) : ∃ t, u.perform .host (.h c) = .next t := by
  have hwrite : ∃ t, exec .write u = .next t := by
    by_cases hp : u.phase = .idle
    · exact ⟨_, execWrite_accepted hp⟩
    · exact ⟨_, execWrite_refused hp⟩
  have hnew : ∃ t, exec .new u = .next t := by
    cases hn : u.unbuilt with
    | true => exact ⟨_, execNew_accepted hn⟩
    | false => exact ⟨_, execNew_refused hn⟩
  rcases code2_cases c with rfl | rfl | rfl | rfl
  · exact ⟨_, rfl⟩
  · exact hwrite.imp fun _ => perform_host_of_exec rfl
  · exact hnew.imp fun _ => perform_host_of_exec rfl
  · exact ⟨_, rfl⟩

/-- A step that serves the host port performs a command or holds (R83, R84). -/
theorem hasNext_of_fetchHost (hf : s.tickEdges.fetch = s.tickEdges.fetchHost) : ∃ t, step s = .next t := by
  unfold step
  rw [hf]
  cases hh : s.tickEdges.host with
  | nil => exact ⟨_, by rw [State.fetchHost_hold (.inl hh)]⟩
  | cons a more =>
    cases a with
    | discard =>
      rw [State.fetchHost_discard hh]
      split_ifs <;> exact ⟨_, rfl⟩
    | cmd c seq eager =>
      cases hd : s.tickEdges.discarded with
      | true => exact ⟨_, by rw [State.fetchHost_hold (.inr ⟨hd, by rw [hh]; nofun⟩)]⟩
      | false =>
        rw [State.fetchHost_cmd hh hd]
        exact perform_host_hasNext _ c

/-- The head of a listing is performed, or held while its wait is in progress, unless it is the reserved code (R42,
R44). -/
theorem hasNext_of_listing {c : Code2} {cs : List Code2} (hn : s.unbuilt = true) (hl : s.listing = c :: cs)
    (hc : c ≠ 3#2) : ∃ t, step s = .next t := by
  obtain ⟨-, hdone, hheld⟩ := listingPerformsLeftToRight s _ c cs rfl hn hl
  by_cases hh : holdsAfter c s.tickEdges
  · exact ⟨_, hheld hh⟩
  · exact ⟨_, hdone hc hh⟩

theorem StepRecords.hasNext (h : StepRecords s) : ∃ t, step s = .next t := by
  obtain ⟨t, -, hstep, -⟩ := h
  exact ⟨t, hstep⟩

/-- A running write within the ranges of R12 polls a wait that goes on, holds until the item source answers, or
records an event. -/
theorem hasNext_of_running (hr : s.inRange = true) (hq : s.phase.quiet = false) (he : s.hostEager = false) :
    ∃ t, step s = .next t := by
  by_cases hw : s.waitDue = true → s.tickEdges.waitEnds = true
  · cases hp : s.phase with
    | uninit | idle => simp [hp, Phase.quiet] at hq
    | fetch =>
      cases hready : s.tickEdges.itemReadyNow with
      | true => exact (records_of_fetch hp he hready).hasNext
      | false => exact ⟨_, (fetchStepTakesNextElement s _ rfl hp he).1 hready⟩
    | alignTick => exact (records_of_alignTick hp hr he (hw (by simp [State.waitDue, hp]))).hasNext
    | encodeByte => exact (records_of_encodeByte hp hr he hw).hasNext
    | resetGap => exact (records_of_resetGap hp hr he hw).hasNext
  · obtain ⟨hdue, hends⟩ := Classical.not_imp.mp hw
    exact ⟨_, step_of_wait_in_progress hr hq he hdue (Bool.eq_false_iff.mpr hends)⟩

end HasNext

/-- Settles O42: the step performs the head of a listing, serves the host port, or goes on with the command in
progress, which is a write or the SET_LOW of NEW; each has a next state. -/
theorem stepNeverStops : Obligations.StepNeverStops := by
  intro s hi
  rcases s.tickEdges.fetch_cases with ⟨hn, c, cs, hl, -⟩ | ⟨-, hf⟩ | ⟨hb, he, -⟩
  case inl =>
    have hmem : c ∈ s.tickEdges.listing := hl ▸ List.mem_cons_self
    exact hasNext_of_listing hn hl (hi.codes c hmem)
  case inr.inl => exact hasNext_of_fetchHost hf
  case inr.inr =>
    rcases s.tickEdges.busy_iff.mp hb with hq | ⟨hp, ho⟩
    · exact hasNext_of_running hi.range hq he
    · exact ⟨_, step_of_constructing rfl hp ho he⟩

/-! ### An IDLE block -/

/-- From IDLE a step writes what belongs to the host's side, or it is the acceptance of a WRITE (R78, R98);
every other way of a step begins in another phase. -/
theorem Moves.of_idle {u t : State} (h : Moves u t) (hp : u.phase = .idle) :
    t = { u with host := t.host, offer := t.offer, owned := t.owned, marks := t.marks }
      ∨ t = { u.record .cmdWrite with host := t.host, offer := t.offer, rest := t.rest, phase := .fetch } := by
  cases h with
  | hold | discard | nop | refuse => exact .inl rfl
  | write => exact .inr rfl
  | _ => simp_all

/-- Settles O37: with nothing presented the position names no operation, and from IDLE the frame of each way of a
step leaves the line, the draws and the fields as the tick source found them. -/
theorem idleBlockHolds : Obligations.IdleBlockHolds := by
  refine ⟨fun s hb hl hh => ?holds, fun s t hp h => ?idle⟩
  case holds =>
    obtain ⟨-, -, hhold, -⟩ := positionNamesOperation s.tickEdges
    simp only [step, hhold hb hl hh]
  case idle =>
    rcases (step_moves h).of_idle hp with ht | ht <;> rw [ht]
    · exact ⟨.inl ⟨hp, rfl⟩, rfl, rfl, rfl, rfl, rfl, rfl, rfl, rfl, rfl, rfl, rfl, rfl⟩
    · exact ⟨.inr ⟨rfl, rfl⟩, rfl, rfl, rfl, rfl, rfl, rfl, rfl, rfl, rfl, rfl, rfl, rfl⟩

end Sys2Proof.Machine
end
